-- ==== Sys2Proof/Word.lean ====
section
/-! DEFINITION. The word types of the block (00_scope.md R8, R10): a byte is 8 bits, a word 16 bits, a register index
selects one of sixteen registers. -/

namespace Sys2Proof

/-- A byte: 8 bits, unsigned (00_scope.md R10). -/
abbrev Byte := BitVec 8

/-- A word: 16 bits, unsigned (00_scope.md R10). An instruction, PC, I and a stack entry are words. -/
abbrev Word := BitVec 16

/-- An address field nnn: 12 bits (30_encoding.md R82). -/
abbrev Addr12 := BitVec 12

/-- A register index x or y: V[0] to V[15] (10_state.md R21). -/
abbrev RegIdx := Fin 16

/-- `zext_16(v)` of a byte (00_scope.md R11). -/
abbrev zextByte (b : Byte) : Word := b.setWidth 16

/-- `zext_16(nnn)` (30_encoding.md R85). -/
abbrev zextAddr (a : Addr12) : Word := a.setWidth 16

end Sys2Proof
end

