-- ==== Sys2Proof/Syntax.lean ====
section
/-! DEFINITION. The 34 instructions (30_encoding.md R90), one constructor per row of spec/opcode_table.json, and the
pattern that names each of them (R99: "this spec uses those patterns as the instructions' names"). -/

namespace Sys2Proof

/-- One instruction. x and y are register indices, kk a byte, nnn a 12-bit address, n a row count (30_encoding.md R82).
8xy6 and 8xyE keep their y field, which they do not read (R83, R89), so that no bit of a word is dropped (log 11). -/
inductive Instr where
  /-- 00E0 CLS -/
  | cls
  /-- 00EE RET -/
  | ret
  /-- 1nnn JP nnn -/
  | jp (nnn : Addr12)
  /-- 2nnn CALL nnn -/
  | call (nnn : Addr12)
  /-- 3xkk SE Vx, kk -/
  | seByte (x : RegIdx) (kk : Byte)
  /-- 4xkk SNE Vx, kk -/
  | sneByte (x : RegIdx) (kk : Byte)
  /-- 5xy0 SE Vx, Vy -/
  | seReg (x y : RegIdx)
  /-- 6xkk LD Vx, kk -/
  | ldByte (x : RegIdx) (kk : Byte)
  /-- 7xkk ADD Vx, kk -/
  | addByte (x : RegIdx) (kk : Byte)
  /-- 8xy0 LD Vx, Vy -/
  | ldReg (x y : RegIdx)
  /-- 8xy1 OR Vx, Vy -/
  | orReg (x y : RegIdx)
  /-- 8xy2 AND Vx, Vy -/
  | andReg (x y : RegIdx)
  /-- 8xy3 XOR Vx, Vy -/
  | xorReg (x y : RegIdx)
  /-- 8xy4 ADD Vx, Vy -/
  | addReg (x y : RegIdx)
  /-- 8xy5 SUB Vx, Vy -/
  | subReg (x y : RegIdx)
  /-- 8xy6 SHR Vx; y is not read -/
  | shr (x y : RegIdx)
  /-- 8xy7 SUBN Vx, Vy -/
  | subnReg (x y : RegIdx)
  /-- 8xyE SHL Vx; y is not read -/
  | shl (x y : RegIdx)
  /-- 9xy0 SNE Vx, Vy -/
  | sneReg (x y : RegIdx)
  /-- Annn LD I, nnn -/
  | ldI (nnn : Addr12)
  /-- Bnnn JP V0, nnn -/
  | jpV0 (nnn : Addr12)
  /-- Cxkk RND Vx, kk -/
  | rnd (x : RegIdx) (kk : Byte)
  /-- Dxyn DRW Vx, Vy, n -/
  | drw (x y : RegIdx) (n : Nat)
  /-- Ex9E SKP Vx -/
  | skp (x : RegIdx)
  /-- ExA1 SKNP Vx -/
  | sknp (x : RegIdx)
  /-- Fx07 LD Vx, DT -/
  | ldVxDt (x : RegIdx)
  /-- Fx0A LD Vx, K -/
  | ldVxK (x : RegIdx)
  /-- Fx15 LD DT, Vx -/
  | ldDtVx (x : RegIdx)
  /-- Fx18 LD ST, Vx -/
  | ldStVx (x : RegIdx)
  /-- Fx1E ADD I, Vx -/
  | addI (x : RegIdx)
  /-- Fx29 LD F, Vx -/
  | ldF (x : RegIdx)
  /-- Fx33 LD B, Vx -/
  | ldB (x : RegIdx)
  /-- Fx55 LD [I], Vx -/
  | storeRegs (x : RegIdx)
  /-- Fx65 LD Vx, [I] -/
  | loadRegs (x : RegIdx)
  deriving DecidableEq, Repr

/-- The pattern that names the instruction's row of the opcode map (30_encoding.md R90). -/
def Instr.pattern : Instr → String
  | .cls => "00E0" | .ret => "00EE" | .jp _ => "1nnn" | .call _ => "2nnn"
  | .seByte _ _ => "3xkk" | .sneByte _ _ => "4xkk" | .seReg _ _ => "5xy0"
  | .ldByte _ _ => "6xkk" | .addByte _ _ => "7xkk"
  | .ldReg _ _ => "8xy0" | .orReg _ _ => "8xy1" | .andReg _ _ => "8xy2" | .xorReg _ _ => "8xy3"
  | .addReg _ _ => "8xy4" | .subReg _ _ => "8xy5" | .shr _ _ => "8xy6" | .subnReg _ _ => "8xy7"
  | .shl _ _ => "8xyE" | .sneReg _ _ => "9xy0" | .ldI _ => "Annn" | .jpV0 _ => "Bnnn"
  | .rnd _ _ => "Cxkk" | .drw _ _ _ => "Dxyn" | .skp _ => "Ex9E" | .sknp _ => "ExA1"
  | .ldVxDt _ => "Fx07" | .ldVxK _ => "Fx0A" | .ldDtVx _ => "Fx15" | .ldStVx _ => "Fx18"
  | .addI _ => "Fx1E" | .ldF _ => "Fx29" | .ldB _ => "Fx33" | .storeRegs _ => "Fx55"
  | .loadRegs _ => "Fx65"

end Sys2Proof
end

