-- ==== Sys2Proof/WellFormed.lean ====
section
/-! DEFINITION. Which terms of Instr are instructions. Register indices, kk and nnn are bounded by their types; the row
count of Dxyn is a number, and the field n that holds it is 4 bits (30_encoding.md R82, R85; log 12). -/

namespace Sys2Proof

/-- SPRITE_MAX_ROWS: the largest row count the 4-bit field n holds (00_scope.md R8). -/
@[simp] abbrev spriteMaxRows : Nat := 15

/-- The one check a term of Instr can fail: the row count of Dxyn is 0 to 15 (30_encoding.md R85). -/
def Instr.wellFormed : Instr → Bool
  | .drw _ _ n => decide (n ≤ spriteMaxRows)
  | .cls | .ret | .jp _ | .call _ | .seByte _ _ | .sneByte _ _ | .seReg _ _ | .ldByte _ _ | .addByte _ _
  | .ldReg _ _ | .orReg _ _ | .andReg _ _ | .xorReg _ _ | .addReg _ _ | .subReg _ _ | .shr _ _ | .subnReg _ _
  | .shl _ _ | .sneReg _ _ | .ldI _ | .jpV0 _ | .rnd _ _ | .skp _ | .sknp _ | .ldVxDt _ | .ldVxK _
  | .ldDtVx _ | .ldStVx _ | .addI _ | .ldF _ | .ldB _ | .storeRegs _ | .loadRegs _ => true

end Sys2Proof
end

