-- ==== Sys2Proof/Decode.lean ====
section
/-! DEFINITION. The decoder, total on every word and every list of bytes, rejecting by name (30_encoding.md R80 to R94),
and after it the encoder, written from the same table of encodings (R81, R90). -/

namespace Sys2Proof

/-! ### Fields (30_encoding.md R82, R84) -/

/-- c = w[15:12], the category. -/
def fieldC (w : Word) : BitVec 4 := w.extractLsb' 12 4

/-- x = w[11:8], a register index. -/
def fieldX (w : Word) : RegIdx := ⟨(w.extractLsb' 8 4).toNat, (w.extractLsb' 8 4).isLt⟩

/-- y = w[7:4], a register index. -/
def fieldY (w : Word) : RegIdx := ⟨(w.extractLsb' 4 4).toNat, (w.extractLsb' 4 4).isLt⟩

/-- n = w[3:0], the bottom nibble. -/
def fieldN (w : Word) : BitVec 4 := w.extractLsb' 0 4

/-- kk = w[7:0], the bottom byte. -/
def fieldKK (w : Word) : Byte := w.extractLsb' 0 8

/-- nnn = w[11:0], the bottom 12 bits. -/
def fieldNNN (w : Word) : Addr12 := w.extractLsb' 0 12

/-! ### Decode -/

/-- Why a word, or a list of bytes, is no instruction. The first six name the category of the illegal word
(30_encoding.md R92); the last says that fewer than two bytes were given (DESIGN CHOICE, safe, log 14). -/
inductive DecodeError where
  | category0
  | category5
  | category8
  | category9
  | categoryE
  | categoryF
  | truncated
  deriving DecidableEq, Repr

/-- Second level of category 0: the whole of w[11:0] (30_encoding.md R88). -/
def decode0 (nnn : Addr12) : Except DecodeError Instr :=
  if nnn = 0x0E0 then .ok .cls
  else if nnn = 0x0EE then .ok .ret
  else .error .category0

/-- Second level of category 8: the bottom nibble (30_encoding.md R88). -/
def decode8 (x y : RegIdx) (n : BitVec 4) : Except DecodeError Instr :=
  match n.toNat with
  | 0x0 => .ok (.ldReg x y)
  | 0x1 => .ok (.orReg x y)
  | 0x2 => .ok (.andReg x y)
  | 0x3 => .ok (.xorReg x y)
  | 0x4 => .ok (.addReg x y)
  | 0x5 => .ok (.subReg x y)
  | 0x6 => .ok (.shr x y)
  | 0x7 => .ok (.subnReg x y)
  | 0xE => .ok (.shl x y)
  | _ => .error .category8

/-- Second level of category E: the bottom byte (30_encoding.md R88). -/
def decodeE (x : RegIdx) (kk : Byte) : Except DecodeError Instr :=
  match kk.toNat with
  | 0x9E => .ok (.skp x)
  | 0xA1 => .ok (.sknp x)
  | _ => .error .categoryE

/-- Second level of category F: the bottom byte (30_encoding.md R88). -/
def decodeF (x : RegIdx) (kk : Byte) : Except DecodeError Instr :=
  match kk.toNat with
  | 0x07 => .ok (.ldVxDt x)
  | 0x0A => .ok (.ldVxK x)
  | 0x15 => .ok (.ldDtVx x)
  | 0x18 => .ok (.ldStVx x)
  | 0x1E => .ok (.addI x)
  | 0x29 => .ok (.ldF x)
  | 0x33 => .ok (.ldB x)
  | 0x55 => .ok (.storeRegs x)
  | 0x65 => .ok (.loadRegs x)
  | _ => .error .categoryF

/-- First level: the category (30_encoding.md R87); categories 5 and 9 require n = 0 (R89). It reads only w (R91). -/
def decode (w : Word) : Except DecodeError Instr :=
  match (fieldC w).toNat with
  | 0x0 => decode0 (fieldNNN w)
  | 0x1 => .ok (.jp (fieldNNN w))
  | 0x2 => .ok (.call (fieldNNN w))
  | 0x3 => .ok (.seByte (fieldX w) (fieldKK w))
  | 0x4 => .ok (.sneByte (fieldX w) (fieldKK w))
  | 0x5 => if fieldN w = 0 then .ok (.seReg (fieldX w) (fieldY w)) else .error .category5
  | 0x6 => .ok (.ldByte (fieldX w) (fieldKK w))
  | 0x7 => .ok (.addByte (fieldX w) (fieldKK w))
  | 0x8 => decode8 (fieldX w) (fieldY w) (fieldN w)
  | 0x9 => if fieldN w = 0 then .ok (.sneReg (fieldX w) (fieldY w)) else .error .category9
  | 0xA => .ok (.ldI (fieldNNN w))
  | 0xB => .ok (.jpV0 (fieldNNN w))
  | 0xC => .ok (.rnd (fieldX w) (fieldKK w))
  | 0xD => .ok (.drw (fieldX w) (fieldY w) (fieldN w).toNat)
  | 0xE => decodeE (fieldX w) (fieldKK w)
  | _ => decodeF (fieldX w) (fieldKK w)      -- c = 0xF, the one category left

/-- Two bytes as a word, the first in the high half: `a ++ b` (00_scope.md R10, 20_memory.md R65). -/
def wordOfBytes (hi lo : Byte) : Word := hi ++ lo

/-- The bytes of a word as the memory holds them: high byte first (20_memory.md R65). -/
def bytesOfWord (w : Word) : Byte × Byte := (w.extractLsb' 8 8, w.extractLsb' 0 8)

/-- The decoder over bytes: it consumes exactly two (30_encoding.md R80) and returns the rest. -/
def decodeBytes : List Byte → Except DecodeError (Instr × List Byte)
  | hi :: lo :: rest => (decode (wordOfBytes hi lo)).map (·, rest)
  | _ => .error .truncated

/-! ### Encode -/

/-- A word from its four nibbles, bit 15 first (30_encoding.md R81). -/
def ofNibbles (c x y n : Nat) : Word := BitVec.ofNat 16 (c * 0x1000 + x * 0x100 + y * 0x10 + n)

/-- Format A: c nnn. -/
def encA (c : Nat) (nnn : Addr12) : Word := BitVec.ofNat 16 (c * 0x1000 + nnn.toNat)

/-- Formats XK and XS: c x kk. -/
def encXK (c : Nat) (x : RegIdx) (kk : Byte) : Word := BitVec.ofNat 16 (c * 0x1000 + x.val * 0x100 + kk.toNat)

/-- The word of an instruction (30_encoding.md R90); of a well-formed one, the word that decodes to it. -/
def encode : Instr → Word
  | .cls => 0x00E0
  | .ret => 0x00EE
  | .jp nnn => encA 0x1 nnn
  | .call nnn => encA 0x2 nnn
  | .seByte x kk => encXK 0x3 x kk
  | .sneByte x kk => encXK 0x4 x kk
  | .seReg x y => ofNibbles 0x5 x y 0x0
  | .ldByte x kk => encXK 0x6 x kk
  | .addByte x kk => encXK 0x7 x kk
  | .ldReg x y => ofNibbles 0x8 x y 0x0
  | .orReg x y => ofNibbles 0x8 x y 0x1
  | .andReg x y => ofNibbles 0x8 x y 0x2
  | .xorReg x y => ofNibbles 0x8 x y 0x3
  | .addReg x y => ofNibbles 0x8 x y 0x4
  | .subReg x y => ofNibbles 0x8 x y 0x5
  | .shr x y => ofNibbles 0x8 x y 0x6
  | .subnReg x y => ofNibbles 0x8 x y 0x7
  | .shl x y => ofNibbles 0x8 x y 0xE
  | .sneReg x y => ofNibbles 0x9 x y 0x0
  | .ldI nnn => encA 0xA nnn
  | .jpV0 nnn => encA 0xB nnn
  | .rnd x kk => encXK 0xC x kk
  | .drw x y n => ofNibbles 0xD x y n
  | .skp x => encXK 0xE x 0x9E
  | .sknp x => encXK 0xE x 0xA1
  | .ldVxDt x => encXK 0xF x 0x07
  | .ldVxK x => encXK 0xF x 0x0A
  | .ldDtVx x => encXK 0xF x 0x15
  | .ldStVx x => encXK 0xF x 0x18
  | .addI x => encXK 0xF x 0x1E
  | .ldF x => encXK 0xF x 0x29
  | .ldB x => encXK 0xF x 0x33
  | .storeRegs x => encXK 0xF x 0x55
  | .loadRegs x => encXK 0xF x 0x65

/-- The instruction's bytes as memory holds them (20_memory.md R65). -/
def encodeBytes (i : Instr) : List Byte := [(bytesOfWord (encode i)).1, (bytesOfWord (encode i)).2]

/-! ### The opcode map and the host's entry -/

/-- One row of the opcode map: a word w is the row's instruction when `w & mask = bits` (30_encoding.md R90). -/
structure OpcodeRow where
  pattern : String
  bits : Word
  mask : Word
  deriving DecidableEq, Repr

/-- The row's match test (30_encoding.md R90). -/
abbrev OpcodeRow.matches (r : OpcodeRow) (w : Word) : Prop := w &&& r.mask = r.bits

/-- The 34 rows of the opcode map, as the spec's table has them (30_encoding.md R90); the decoder does not use it, and the
statements hold the two against each other. -/
def opcodeMap : List OpcodeRow :=
  [⟨"00E0", 0x00E0, 0xFFFF⟩, ⟨"00EE", 0x00EE, 0xFFFF⟩, ⟨"1nnn", 0x1000, 0xF000⟩, ⟨"2nnn", 0x2000, 0xF000⟩,
   ⟨"3xkk", 0x3000, 0xF000⟩, ⟨"4xkk", 0x4000, 0xF000⟩, ⟨"5xy0", 0x5000, 0xF00F⟩, ⟨"6xkk", 0x6000, 0xF000⟩,
   ⟨"7xkk", 0x7000, 0xF000⟩] ++
  [⟨"8xy0", 0x8000, 0xF00F⟩, ⟨"8xy1", 0x8001, 0xF00F⟩, ⟨"8xy2", 0x8002, 0xF00F⟩, ⟨"8xy3", 0x8003, 0xF00F⟩,
   ⟨"8xy4", 0x8004, 0xF00F⟩, ⟨"8xy5", 0x8005, 0xF00F⟩, ⟨"8xy6", 0x8006, 0xF00F⟩, ⟨"8xy7", 0x8007, 0xF00F⟩,
   ⟨"8xyE", 0x800E, 0xF00F⟩, ⟨"9xy0", 0x9000, 0xF00F⟩] ++
  [⟨"Annn", 0xA000, 0xF000⟩, ⟨"Bnnn", 0xB000, 0xF000⟩, ⟨"Cxkk", 0xC000, 0xF000⟩, ⟨"Dxyn", 0xD000, 0xF000⟩,
   ⟨"Ex9E", 0xE09E, 0xF0FF⟩, ⟨"ExA1", 0xE0A1, 0xF0FF⟩] ++
  [⟨"Fx07", 0xF007, 0xF0FF⟩, ⟨"Fx0A", 0xF00A, 0xF0FF⟩, ⟨"Fx15", 0xF015, 0xF0FF⟩, ⟨"Fx18", 0xF018, 0xF0FF⟩,
   ⟨"Fx1E", 0xF01E, 0xF0FF⟩, ⟨"Fx29", 0xF029, 0xF0FF⟩, ⟨"Fx33", 0xF033, 0xF0FF⟩, ⟨"Fx55", 0xF055, 0xF0FF⟩,
   ⟨"Fx65", 0xF065, 0xF0FF⟩]

/-- The 16-bit word the opcode table's numbering gives: bit 0 is the least significant bit of the one word an instruction
has, and bits above nbits are 0. -/
def tableWord (nbits w : Nat) : Word := BitVec.ofNat 16 (w % 2 ^ nbits)

/-- The instruction the decoder reads from the table's bits, laid out as memory holds them. -/
def decodeTableWord (nbits w : Nat) : Option Instr :=
  let b := bytesOfWord (tableWord nbits w)
  match decodeBytes [b.1, b.2] with
  | .ok (i, _) => some i
  | .error _ => none

end Sys2Proof
end

