-- ==== Sys2Proof/Config.lean ====
section
/-! DEFINITION. What is fixed for one block: the fixed parameters of 00_scope.md R8 and the open parameters of R9.
An open parameter without a body is a free value: nothing in Lean can evaluate it, so a claim holds whatever it is. -/

namespace Sys2Proof.Config

/-- MEM_SIZE: addresses 0x000 to 0xFFF (00_scope.md R8). -/
@[simp] abbrev memSize : Nat := 0x1000

/-- PROGRAM_BASE, where the loader puts a program and PC starts (00_scope.md R8). -/
@[simp] abbrev programBase : Nat := 0x200

/-- ROM_MAX: 4096 - 0x200 bytes (00_scope.md R8, 20_memory.md R74). -/
@[simp] abbrev romMax : Nat := 3584

/-- FONT_SIZE: 16 glyphs of 5 bytes at 0x000 (00_scope.md R8). -/
@[simp] abbrev fontSize : Nat := 80

/-- STACK_DEPTH: 16 entries (00_scope.md R8). -/
@[simp] abbrev stackDepth : Nat := 16

/-- FONT: the 80 bytes at 0x000 to 0x04F, which the source does not give (00_scope.md R9, D13).
DESIGN CHOICE, a free value, safe (log 1). -/
opaque font : Fin 80 → Byte

/-- The conventional CHIP-8 font, the default the spec names for FONT (93_implementation_defined.md section 2.1, general
knowledge). PRESUMED: the model does not use it; a claim about concrete glyphs takes `font = conventionalFont ·` as a
premise, as the spec asks (log 1). -/
def conventionalFont (a : Fin 80) : Byte :=
  ([0xF0, 0x90, 0x90, 0x90, 0xF0,   0x20, 0x60, 0x20, 0x20, 0x70,
    0xF0, 0x10, 0xF0, 0x80, 0xF0,   0xF0, 0x10, 0xF0, 0x10, 0xF0,
    0x90, 0x90, 0xF0, 0x10, 0x10,   0xF0, 0x80, 0xF0, 0x10, 0xF0] ++
   [0xF0, 0x80, 0xF0, 0x90, 0xF0,   0xF0, 0x10, 0x20, 0x40, 0x40,
    0xF0, 0x90, 0xF0, 0x90, 0xF0,   0xF0, 0x90, 0xF0, 0x10, 0xF0,
    0xF0, 0x90, 0xF0, 0x90, 0x90,   0xE0, 0x90, 0xE0, 0x90, 0xE0] ++
   [0xF0, 0x80, 0x80, 0x80, 0xF0,   0xE0, 0x90, 0x90, 0x90, 0xE0,
    0xF0, 0x80, 0xF0, 0x80, 0xF0,   0xF0, 0x80, 0xF0, 0x80, 0x80] : List Byte).getD a 0

/-- rnd: the random byte of the n-th draw, under no law (00_scope.md R9, 41_alu.md R155, D14).
DESIGN CHOICE, a free value, safe (log 2). -/
opaque rnd : Nat → Byte

/-- key_choice: which pressed key Fx0A returns, as a position in the list of pressed keys, taken modulo its length
(00_scope.md R9, 44_keypad_timers.md R213, D8). DESIGN CHOICE, a free value, safe (log 3). -/
opaque keyChoice : Nat → List (Fin 16) → Nat

/-- VF_ALIAS_FAULT, at the default the spec gives it (00_scope.md R9, 41_alu.md R156, D9).
DESIGN CHOICE, unsafe (log 4). -/
def vfAliasFault : Bool := false

/-- cycle_rate: how often the host requests a cycle; no rule reads it, so nothing here does (00_scope.md R9, D29; log 15). -/
opaque cycleRate : Nat

end Sys2Proof.Config
end

