-- ==== Sys2Proof/Machine/State.lean ====
section
/-! DEFINITION. The state record of the block (10_state.md R20) as plain data, the outcomes' reasons, and the reset state
(10_state.md R48, 70_reset_and_hazards.md R270). -/

namespace Sys2Proof.Machine

/-- The memory M (10_state.md R37): address and byte pairs in one canonical form (`Memory.wf`), addresses strictly rising
below 4096, no entry equal to what an unlisted address reads as. -/
abbrev Memory := List Host.Cell

/-- The general registers V[0] to V[15] (10_state.md R21). -/
abbrev Regs := Vector Byte 16

/-- The keypad K[0x0] to K[0xF], true when pressed (10_state.md R39). -/
abbrev Keys := Vector Bool 16

/-- The display D, 32 rows of 64 cells, true when lit (10_state.md R38; the row-by-row layout is DEDUCED, log 16). -/
abbrev Display := Vector (Vector Bool 64) 32

/-- The run status (10_state.md R40). -/
inductive Phase where
  /-- after reset, before the first completed cycle -/
  | reset
  /-- at least one cycle has completed and none has faulted -/
  | running
  /-- a cycle has faulted -/
  | halted
  deriving DecidableEq, Repr

/-- The fault kinds a cycle can raise (60_exceptions.md R230). -/
inductive FaultKind where
  | decodeError
  | stackOverflow
  | stackUnderflow
  | memoryBounds
  | keyIndex
  deriving DecidableEq, Repr

/-- The fault record (10_state.md R41). Its field `code` is `FaultRecord.code`, computed from the kind (log 10). -/
structure FaultRecord where
  kind : FaultKind
  /-- the word fetched, or none when the fetch itself faulted -/
  opcode : Option Word
  /-- the address the instruction was, or was to be, fetched from -/
  pc : Word
  /-- MemoryBounds: the lowest address out of range, an unbounded integer; KeyIndex: V[x]; none otherwise -/
  detail : Option Nat
  deriving DecidableEq, Repr

/-- The state of the block (10_state.md R20). -/
structure State where
  /-- M -/
  mem : Memory
  /-- V[0] to V[15]; V[15] is VF -/
  v : Regs
  /-- I, the index register (R30) -/
  i : Word
  /-- PC (R24) -/
  pc : Word
  /-- SP, 8 bits, legal values 0 to 16 (R31) -/
  sp : Byte
  /-- S[0] to S[15], the return-address stack (R35) -/
  stack : Vector Word 16
  /-- DT, the delay timer (R32) -/
  dt : Byte
  /-- ST, the sound timer (R33) -/
  st : Byte
  /-- K (R39) -/
  keys : Keys
  /-- D (R38) -/
  display : Display
  /-- the run status (R40) -/
  phase : Phase
  /-- the fault record or none (R41) -/
  fault : Option FaultRecord
  /-- whether a load has succeeded (R20, R43) -/
  loaded : Bool
  /-- THE MODEL'S OWN, not the spec's: how many free values have been drawn (log 2) -/
  draws : Nat
  deriving DecidableEq, Repr

/-- Why the model itself stops. The faults of the spec (60_exceptions.md R230) are not among these: each is a next state in
phase Halted (log 6). -/
inductive Fault where
  /-- Raised by 2nnn and 00EE when SP is above 16, where S has no entry to name. Safe: the spec says these values of SP are
  never held (10_state.md R31), and no run from reset reaches one (log 5). -/
  | stackPointerIllegal
  deriving DecidableEq, Repr

/-- Why the model gives a request no meaning. -/
inductive Refusal where
  /-- Raised by an arm of exec whose instruction has no meaning yet. Safe. No arm answers it now. -/
  | notModelled (mnemonic : String)
  /-- Raised by 8xy5, 8xy7 (x or y = F) and 8xy6, 8xyE (x = F) in a block built with VF_ALIAS_FAULT = true
  (41_alu.md R156). Safe. `Config.vfAliasFault` is false, so exec does not answer it (log 4). -/
  | vfAlias
  /-- Raised by the host operation load outside its allowed phase (10_state.md R43, 20_memory.md R74). Safe (log 17). -/
  | loadNotAllowed
  deriving DecidableEq, Repr

/-- The display with every cell 0. -/
def Display.blank : Display := Vector.replicate 32 (Vector.replicate 64 false)

/-- The reset state (10_state.md R48): memory with nothing listed reads as FONT and then zeros (`Memory.unlisted`), every
register, timer, stack entry, key and cell 0, PC = 0x200, phase Reset, no fault record, loaded = 0.
The model's own counter `draws` starts at 0, a DESIGN CHOICE no statement rests on (log 2). -/
def State.reset : State where
  mem := []
  v := Vector.replicate 16 0
  i := 0
  pc := 0x200
  sp := 0
  stack := Vector.replicate 16 0
  dt := 0
  st := 0
  keys := Vector.replicate 16 false
  display := Display.blank
  phase := .reset
  fault := none
  loaded := false
  draws := 0

end Sys2Proof.Machine
end

