-- ==== Sys2Proof/Machine/Ops.lean ====
section
/-! DEFINITION. The named operations over memory, registers, display, stack, timers and keys that the meanings share, and
the one operation by which a cycle takes a fault (60_exceptions.md R232), with reset, the only way back, beside it. -/

namespace Sys2Proof.Machine

/-- An outcome of this machine. -/
abbrev Result := Host.Outcome State Fault Refusal

/-! ### Memory (20_memory.md) -/

/-- What an address reads as when nothing is listed for it: its reset value (10_state.md R48, 20_memory.md R61). -/
def Memory.unlisted (a : Nat) : Byte := if h : a < 80 then Config.font ⟨a, h⟩ else 0

/-- `MemRead(a, 1)` (00_scope.md R12). It requires a below 0x1000, which every caller has checked (log 13). -/
def Memory.read : Memory → Nat → Byte
  | [], a => Memory.unlisted a
  | (a', b) :: m, a => if a = a' then b else Memory.read m a

/-- `MemWrite(a, 1, v)` (00_scope.md R12), keeping the canonical form. It requires a below 0x1000, which every caller has
checked (log 13). -/
def Memory.write : Memory → Nat → Byte → Memory
  | [], a, b => if b = Memory.unlisted a then [] else [(a, b)]
  | (a', b') :: m, a, b =>
    if a < a' then (if b = Memory.unlisted a then (a', b') :: m else (a, b) :: (a', b') :: m)
    else if a = a' then (if b = Memory.unlisted a then m else (a, b) :: m)
    else (a', b') :: Memory.write m a b

/-- `MemWrite` of consecutive bytes from address a, in rising order. -/
def Memory.writeBytes : Memory → Nat → List Byte → Memory
  | m, _, [] => m
  | m, a, b :: bs => Memory.writeBytes (m.write a b) (a + 1) bs

/-- The canonical form from address lo on: addresses strictly rising and below 4096, no entry equal to the unlisted value. -/
def Memory.wfFrom : Nat → Memory → Bool
  | _, [] => true
  | lo, (a, b) :: m =>
    decide (lo ≤ a) && decide (a < Config.memSize) && decide (b ≠ Memory.unlisted a) && Memory.wfFrom (a + 1) m

/-- The memory is in its canonical form. -/
def Memory.wf (m : Memory) : Bool := Memory.wfFrom 0 m

/-- The bounds check of 20_memory.md R64 for the addresses base to base + len - 1, as unbounded integers: the lowest address
above 0xFFF, if there is one. An access of no byte is never checked. -/
def outOfRange (base len : Nat) : Option Nat :=
  if len ≠ 0 ∧ Config.memSize < base + len then some (max base Config.memSize) else none

/-! ### Registers (10_state.md R21, R22) -/

/-- V[r]. -/
def State.reg (s : State) (r : RegIdx) : Byte := s.v[r]

/-- V[r] <- b. -/
def State.setReg (s : State) (r : RegIdx) (b : Byte) : State := { s with v := s.v.set r b }

/-- VF <- b (10_state.md R22: VF is V[15]). -/
def State.setVF (s : State) (b : Byte) : State := s.setReg 15 b

/-! ### Special registers (10_state.md R24, R30, R32, R33) -/

/-- PC <- t. -/
def State.setPc (s : State) (t : Word) : State := { s with pc := t }

/-- The skip of 40_control_flow.md R120: PC <- PC + 2 when the condition holds. -/
def State.skipIf (s : State) (c : Bool) : State := if c then s.setPc (s.pc + 2) else s

/-- I <- w. -/
def State.setI (s : State) (w : Word) : State := { s with i := w }

/-- DT <- b. -/
def State.setDt (s : State) (b : Byte) : State := { s with dt := b }

/-- ST <- b. -/
def State.setSt (s : State) (b : Byte) : State := { s with st := b }

/-- M <- m. -/
def State.setMem (s : State) (m : Memory) : State := { s with mem := m }

/-- D <- d. -/
def State.setDisplay (s : State) (d : Display) : State := { s with display := d }

/-! ### The return-address stack (10_state.md R35) -/

/-- S[SP] <- w, then SP <- SP + 1 (40_control_flow.md R123), for an SP that names an entry. -/
def State.push (s : State) (w : Word) (h : s.sp.toNat < 16) : State :=
  { s with stack := s.stack.set s.sp.toNat w, sp := s.sp + 1 }

/-- SP <- SP - 1, then PC <- S[SP] (40_control_flow.md R121), for an SP whose entry below exists; the entry stays. -/
def State.pop (s : State) (h : s.sp.toNat - 1 < 16) : State :=
  { s with sp := s.sp - 1, pc := s.stack[s.sp.toNat - 1] }

/-! ### The display (10_state.md R38) -/

/-- D(c, r). -/
def Display.cell (d : Display) (c : Fin 64) (r : Fin 32) : Bool := d[r][c]

/-- D(c, r) <- b. -/
def Display.setCell (d : Display) (c : Fin 64) (r : Fin 32) (b : Bool) : Display := d.set r (d[r].set c b)

/-- A display and the collision flag gathered so far. -/
abbrev Canvas := Display × Bool

/-- Draw a 1 bit at D(c, r): collision if the cell is lit, then the cell is inverted (43_display.md R192). -/
def Canvas.plot (k : Canvas) (c : Fin 64) (r : Fin 32) : Canvas :=
  (k.1.setCell c r (!k.1.cell c r), k.2 || k.1.cell c r)

/-- The first `count` bits of a sprite byte b, bit 7 first, in row py from column x0 on, each cell wrapping on its own
(43_display.md R191, R192). -/
def drawByte (b : Byte) (x0 : Nat) (py : Fin 32) : Nat → Canvas → Canvas
  | 0, k => k
  | c + 1, k =>
    let k' := drawByte b x0 py c k
    if b.getLsbD (7 - c) then k'.plot (Fin.ofNat 64 (x0 + c)) py else k'

/-- The first `count` rows of the sprite at address base, from origin (x0, y0) (43_display.md R192). -/
def drawRows (m : Memory) (base x0 y0 : Nat) : Nat → Canvas → Canvas
  | 0, k => k
  | r + 1, k =>
    drawByte (m.read (base + r)) x0 (Fin.ofNat 32 (y0 + r)) 8 (drawRows m base x0 y0 r k)

/-! ### Block transfers (42_index_memory.md R174, R175) -/

/-- `for i in 0 .. count-1: MemWrite(base + i, 1, V[i])`. -/
def storeFirst (v : Regs) (base : Nat) : Nat → Memory → Memory
  | 0, m => m
  | k + 1, m => (storeFirst v base k m).write (base + k) v[Fin.ofNat 16 k]

/-- `for i in 0 .. count-1: V[i] <- MemRead(base + i, 1)`. -/
def loadFirst (m : Memory) (base : Nat) : Nat → Regs → Regs
  | 0, v => v
  | k + 1, v => (loadFirst m base k v).set (Fin.ofNat 16 k) (m.read (base + k))

/-! ### Timers (60_exceptions.md R250) -/

/-- `if T > 0: T <- T - 1`. -/
def tick (t : Byte) : Byte := if t = 0 then 0 else t - 1

/-- The end of a completed cycle: both timers tick, and phase Reset becomes Running (30_encoding.md R95). -/
def State.completeCycle (s : State) : State :=
  { s with dt := tick s.dt, st := tick s.st, phase := if s.phase = .reset then .running else s.phase }

/-! ### The keypad and the free inputs (10_state.md R39, R42, R43) -/

/-- Whether key k is pressed. -/
def State.key (s : State) (k : Fin 16) : Bool := s.keys[k]

/-- P = the pressed keys, lowest first (44_keypad_timers.md R213). -/
def State.pressed (s : State) : List (Fin 16) :=
  ([0, 1, 2, 3, 4, 5, 6, 7, 8, 9, 10, 11, 12, 13, 14, 15] : List (Fin 16)).filter s.key

/-- key_choice(P) for P = k :: ks: the one key when only one is pressed, else the free choice `Config.keyChoice` among them
(44_keypad_timers.md R213, D8; log 3). -/
def chooseKey (draw : Nat) (k : Fin 16) : List (Fin 16) → Fin 16
  | [] => k
  | k' :: ks =>
    let p := k :: k' :: ks
    p.getD (Config.keyChoice draw p % p.length) k

/-- One free value has been drawn (log 2). -/
def State.drawn (s : State) : State := { s with draws := s.draws + 1 }

/-! ### Taking a fault, and reset (60_exceptions.md R230 to R236) -/

/-- code: the number of the kind (10_state.md R41, 60_exceptions.md R230). -/
def FaultKind.code : FaultKind → Nat
  | .decodeError => 1
  | .stackOverflow => 2
  | .stackUnderflow => 3
  | .memoryBounds => 4
  | .keyIndex => 5

/-- The record's field code (10_state.md R41). -/
def FaultRecord.code (r : FaultRecord) : Nat := r.kind.code

/-- What a fault does (60_exceptions.md R232), to a state whose components are those of the cycle's start but for PC:
PC is the instruction's own address a again, phase <- Halted, and the record is set. -/
def State.takeFault (s : State) (kind : FaultKind) (opcode : Option Word) (a : Word) (detail : Option Nat) : State :=
  { s with pc := a, phase := .halted, fault := some ⟨kind, opcode, a, detail⟩ }

/-- `raise kind(opcode = w, pc = a, detail)` while instruction i executes, when PC = a + 2 (30_encoding.md R96); w is the
word of i (log 7). -/
def State.raise (s : State) (i : Instr) (kind : FaultKind) (detail : Option Nat) : State :=
  s.takeFault kind (some (encode i)) (s.pc - 2) detail

/-- An instruction that accesses the len bytes from I on: MemoryBounds if one of them is above 0xFFF, else next state t
(20_memory.md R64). -/
def State.checked (s : State) (i : Instr) (len : Nat) (t : State) : Result :=
  match outOfRange s.i.toNat len with
  | some d => .next (s.raise i .memoryBounds (some d))
  | none => .next t

/-- The reset operation, the only way out of phase Halted (60_exceptions.md R236, 70_reset_and_hazards.md R271): the whole
state becomes the reset state. The model's own counter `draws` goes on, so that the free values after a reset are not those
before it (DESIGN CHOICE, safe, log 9). -/
def State.hostReset (s : State) : State := { State.reset with draws := s.draws }

end Sys2Proof.Machine
end

