-- ==== Sys2Proof/Machine/Flags.lean ====
section
/-! DEFINITION. Every value an instruction writes to VF as a flag (10_state.md R29), from the operands before the
instruction, and the forms whose result rests on how VF aliasing is read (41_alu.md R156). -/

namespace Sys2Proof.Machine

/-- A flag as the byte VF receives: 1 or 0. -/
def flagByte (c : Bool) : Byte := if c then 1 else 0

/-- 8xy4: 1 if p + q > 255, not reduced, else 0 (41_alu.md R150). -/
def carryFlag (p q : Byte) : Byte := flagByte (decide (255 < p.toNat + q.toNat))

/-- 8xy5 and 8xy7: 1 if the minuend is strictly greater than the subtrahend, else 0 (41_alu.md R151, R153). -/
def greaterFlag (minuend subtrahend : Byte) : Byte := flagByte (decide (subtrahend.toNat < minuend.toNat))

/-- 8xy6: the bit shifted out on the right, p & 1 (41_alu.md R152). -/
def lowBitFlag (p : Byte) : Byte := p &&& 1

/-- 8xyE: the bit shifted out on the left, p >> 7 (41_alu.md R154). -/
def highBitFlag (p : Byte) : Byte := p >>> 7

/-- The two-register forms whose result rests on the reading: x = F or y = F (41_alu.md R156). -/
def aliasesVF2 (x y : RegIdx) : Bool := decide (x = 15) || decide (y = 15)

/-- The shift forms whose result rests on the reading: x = F (41_alu.md R156). -/
def aliasesVF1 (x : RegIdx) : Bool := decide (x = 15)

/-- A form of 41_alu.md R156: refused in a block built with VF_ALIAS_FAULT = true, else next state t. -/
def unlessAliased (aliasFault aliased : Bool) (t : State) : Result :=
  if aliasFault && aliased then .refused .vfAlias else .next t

end Sys2Proof.Machine
end

