-- ==== Sys2Proof/Machine/Operands.lean ====
section
/-! DEFINITION. Every operand form the spec gives (30_encoding.md R85, R86; 42_index_memory.md R176): registers, the byte kk,
the address nnn, the indexed address I + k, the sprite origin and the key a register names. -/

namespace Sys2Proof.Machine

/-- The operand V[x] extended to 16 bits (42_index_memory.md R171, R172). -/
def State.regWord (s : State) (x : RegIdx) : Word := zextByte (s.reg x)

/-- The base of an indexed access: the k-th byte is at I + k, an unbounded integer (42_index_memory.md R176). -/
def State.indexBase (s : State) : Nat := s.i.toNat

/-- How many registers Fx55 and Fx65 move: V[0] to V[x] (30_encoding.md R86). -/
def regCount (x : RegIdx) : Nat := x.val + 1

/-- The column of a sprite's origin: V[x] mod 64 (43_display.md R191). -/
def State.originCol (s : State) (x : RegIdx) : Nat := (s.reg x).toNat % 64

/-- The row of a sprite's origin: V[y] mod 32 (43_display.md R191). -/
def State.originRow (s : State) (y : RegIdx) : Nat := (s.reg y).toNat % 32

/-- The decimal digits of a byte, hundreds first (42_index_memory.md R173). -/
def decimalDigits (b : Byte) : List Byte := [b / 100, (b / 10) % 10, b % 10]

/-- The key that V[x] names, or none when V[x] > 0xF (44_keypad_timers.md R210). -/
def State.keyOf (s : State) (x : RegIdx) : Option (Fin 16) :=
  if h : (s.reg x).toNat < 16 then some ⟨(s.reg x).toNat, h⟩ else none

/-- A key's index as a register value (44_keypad_timers.md R213). -/
def keyByte (k : Fin 16) : Byte := BitVec.ofNat 8 k.val

end Sys2Proof.Machine
end

