-- ==== Sys2Proof/Machine/Alu.lean ====
section
/-! DEFINITION. The meanings of 6xkk, 7xkk, 8xy0 to 8xy7, 8xyE and Cxkk (41_alu.md). Operands are read before any write and
the writes happen in the order the rule lists them (00_scope.md R15). -/

namespace Sys2Proof.Machine

/-- 6xkk (41_alu.md R141). -/
def execLdByte (x : RegIdx) (kk : Byte) (s : State) : Result := .next (s.setReg x kk)

/-- 7xkk (41_alu.md R142). -/
def execAddByte (x : RegIdx) (kk : Byte) (s : State) : Result := .next (s.setReg x (s.reg x + kk))

/-- 8xy0 (41_alu.md R143). -/
def execLdReg (x y : RegIdx) (s : State) : Result := .next (s.setReg x (s.reg y))

/-- 8xy1 (41_alu.md R144). -/
def execOrReg (x y : RegIdx) (s : State) : Result := .next (s.setReg x (s.reg x ||| s.reg y))

/-- 8xy2 (41_alu.md R145). -/
def execAndReg (x y : RegIdx) (s : State) : Result := .next (s.setReg x (s.reg x &&& s.reg y))

/-- 8xy3 (41_alu.md R146). -/
def execXorReg (x y : RegIdx) (s : State) : Result := .next (s.setReg x (s.reg x ^^^ s.reg y))

/-- 8xy4 (41_alu.md R150): the sum, then the carry. -/
def execAddReg (x y : RegIdx) (s : State) : Result :=
  .next ((s.setReg x (s.reg x + s.reg y)).setVF (carryFlag (s.reg x) (s.reg y)))

/-- 8xy5 (41_alu.md R151) for a block built with the given VF_ALIAS_FAULT: the flag, then the difference. -/
def subRegWith (aliasFault : Bool) (x y : RegIdx) (s : State) : Result :=
  unlessAliased aliasFault (aliasesVF2 x y)
    ((s.setVF (greaterFlag (s.reg x) (s.reg y))).setReg x (s.reg x - s.reg y))

/-- 8xy5 (41_alu.md R151). -/
def execSubReg (x y : RegIdx) (s : State) : Result := subRegWith Config.vfAliasFault x y s

/-- 8xy6 (41_alu.md R152) for a block built with the given VF_ALIAS_FAULT: the bit shifted out, then the shift. -/
def shrWith (aliasFault : Bool) (x : RegIdx) (s : State) : Result :=
  unlessAliased aliasFault (aliasesVF1 x) ((s.setVF (lowBitFlag (s.reg x))).setReg x (s.reg x >>> 1))

/-- 8xy6 (41_alu.md R152): y is not read. -/
def execShr (x _y : RegIdx) (s : State) : Result := shrWith Config.vfAliasFault x s

/-- 8xy7 (41_alu.md R153) for a block built with the given VF_ALIAS_FAULT: the flag, then the difference. -/
def subnRegWith (aliasFault : Bool) (x y : RegIdx) (s : State) : Result :=
  unlessAliased aliasFault (aliasesVF2 x y)
    ((s.setVF (greaterFlag (s.reg y) (s.reg x))).setReg x (s.reg y - s.reg x))

/-- 8xy7 (41_alu.md R153). -/
def execSubnReg (x y : RegIdx) (s : State) : Result := subnRegWith Config.vfAliasFault x y s

/-- 8xyE (41_alu.md R154) for a block built with the given VF_ALIAS_FAULT: the bit shifted out, then the shift. -/
def shlWith (aliasFault : Bool) (x : RegIdx) (s : State) : Result :=
  unlessAliased aliasFault (aliasesVF1 x) ((s.setVF (highBitFlag (s.reg x))).setReg x (s.reg x <<< 1))

/-- 8xyE (41_alu.md R154): y is not read. -/
def execShl (x _y : RegIdx) (s : State) : Result := shlWith Config.vfAliasFault x s

/-- Cxkk (41_alu.md R155): rnd is the free byte of this draw (log 2). -/
def execRnd (x : RegIdx) (kk : Byte) (s : State) : Result :=
  .next (s.setReg x (Config.rnd s.draws &&& kk)).drawn

end Sys2Proof.Machine
end

