-- ==== Sys2Proof/Machine/ControlFlow.lean ====
section
/-! DEFINITION. The meanings of 00EE, 1nnn, 2nnn, 3xkk, 4xkk, 5xy0, 9xy0 and Bnnn (40_control_flow.md). Each starts from
PC = a + 2 (30_encoding.md R96). -/

namespace Sys2Proof.Machine

/-- 00EE (40_control_flow.md R121). -/
def execRet (s : State) : Result :=
  if s.sp = 0 then .next (s.raise .ret .stackUnderflow none)
  else if h : s.sp.toNat - 1 < 16 then .next (s.pop h)
  else .fault .stackPointerIllegal

/-- 1nnn (40_control_flow.md R122). -/
def execJp (nnn : Addr12) (s : State) : Result := .next (s.setPc (zextAddr nnn))

/-- 2nnn (40_control_flow.md R123). -/
def execCall (nnn : Addr12) (s : State) : Result :=
  if s.sp = 16 then .next (s.raise (.call nnn) .stackOverflow none)
  else if h : s.sp.toNat < 16 then .next ((s.push s.pc h).setPc (zextAddr nnn))
  else .fault .stackPointerIllegal

/-- 3xkk (40_control_flow.md R124). -/
def execSeByte (x : RegIdx) (kk : Byte) (s : State) : Result := .next (s.skipIf (decide (s.reg x = kk)))

/-- 4xkk (40_control_flow.md R125). -/
def execSneByte (x : RegIdx) (kk : Byte) (s : State) : Result := .next (s.skipIf (decide (s.reg x ≠ kk)))

/-- 5xy0 (40_control_flow.md R126). -/
def execSeReg (x y : RegIdx) (s : State) : Result := .next (s.skipIf (decide (s.reg x = s.reg y)))

/-- 9xy0 (40_control_flow.md R127). -/
def execSneReg (x y : RegIdx) (s : State) : Result := .next (s.skipIf (decide (s.reg x ≠ s.reg y)))

/-- Bnnn (40_control_flow.md R128): the register is V[0], and the sum is not reduced to 12 bits. -/
def execJpV0 (nnn : Addr12) (s : State) : Result := .next (s.setPc (zextAddr nnn + s.regWord 0))

end Sys2Proof.Machine
end

