-- ==== Sys2Proof/Machine/DisplayOps.lean ====
section
/-! DEFINITION. The meanings of 00E0 and Dxyn (43_display.md). -/

namespace Sys2Proof.Machine

/-- 00E0 (43_display.md R190). -/
def execCls (s : State) : Result := .next (s.setDisplay Display.blank)

/-- The display after the draw, and whether any lit cell was turned off (43_display.md R192): the flag starts at 0 and is
gathered over all bits drawn. -/
def State.drawSprite (s : State) (x y : RegIdx) (n : Nat) : Canvas :=
  drawRows s.mem s.indexBase (s.originCol x) (s.originRow y) n (s.display, false)

/-- Dxyn (43_display.md R192, R194): VF is written once, last. -/
def execDrw (x y : RegIdx) (n : Nat) (s : State) : Result :=
  s.checked (.drw x y n) n
    ((s.setDisplay (s.drawSprite x y n).1).setVF (flagByte (s.drawSprite x y n).2))

end Sys2Proof.Machine
end

