-- ==== Sys2Proof/Machine/IndexMemory.lean ====
section
/-! DEFINITION. The meanings of Annn, Fx1E, Fx29, Fx33, Fx55 and Fx65 (42_index_memory.md). I is never changed by an
access (R176). -/

namespace Sys2Proof.Machine

/-- Annn (42_index_memory.md R170). -/
def execLdI (nnn : Addr12) (s : State) : Result := .next (s.setI (zextAddr nnn))

/-- Fx1E (42_index_memory.md R171): modulo 65536, VF unchanged. -/
def execAddI (x : RegIdx) (s : State) : Result := .next (s.setI (s.i + s.regWord x))

/-- Fx29 (42_index_memory.md R172): V[x] is not reduced to its low nibble. -/
def execLdF (x : RegIdx) (s : State) : Result := .next (s.setI (5 * s.regWord x))

/-- Fx33 (42_index_memory.md R173). -/
def execLdB (x : RegIdx) (s : State) : Result :=
  s.checked (.ldB x) 3 (s.setMem (s.mem.writeBytes s.indexBase (decimalDigits (s.reg x))))

/-- Fx55 (42_index_memory.md R174). -/
def execStoreRegs (x : RegIdx) (s : State) : Result :=
  s.checked (.storeRegs x) (regCount x) (s.setMem (storeFirst s.v s.indexBase (regCount x) s.mem))

/-- Fx65 (42_index_memory.md R175). -/
def execLoadRegs (x : RegIdx) (s : State) : Result :=
  s.checked (.loadRegs x) (regCount x) { s with v := loadFirst s.mem s.indexBase (regCount x) s.v }

end Sys2Proof.Machine
end

