-- ==== Sys2Proof/Machine/KeypadTimers.lean ====
section
/-! DEFINITION. The meanings of Ex9E, ExA1, Fx07, Fx0A, Fx15 and Fx18 (44_keypad_timers.md). -/

namespace Sys2Proof.Machine

/-- Ex9E (44_keypad_timers.md R210). -/
def execSkp (x : RegIdx) (s : State) : Result :=
  match s.keyOf x with
  | some k => .next (s.skipIf (s.key k))
  | none => .next (s.raise (.skp x) .keyIndex (some (s.reg x).toNat))

/-- ExA1 (44_keypad_timers.md R211). -/
def execSknp (x : RegIdx) (s : State) : Result :=
  match s.keyOf x with
  | some k => .next (s.skipIf (!s.key k))
  | none => .next (s.raise (.sknp x) .keyIndex (some (s.reg x).toNat))

/-- Fx07 (44_keypad_timers.md R212): DT before this cycle's tick. -/
def execLdVxDt (x : RegIdx) (s : State) : Result := .next (s.setReg x s.dt)

/-- Fx0A (44_keypad_timers.md R213): with no key pressed PC goes back to a, and the same instruction executes again. -/
def execLdVxK (x : RegIdx) (s : State) : Result :=
  match s.pressed with
  | [] => .next (s.setPc (s.pc - 2))
  | k :: ks => .next (s.setReg x (keyByte (chooseKey s.draws k ks))).drawn

/-- Fx15 (44_keypad_timers.md R214). -/
def execLdDtVx (x : RegIdx) (s : State) : Result := .next (s.setDt (s.reg x))

/-- Fx18 (44_keypad_timers.md R215). -/
def execLdStVx (x : RegIdx) (s : State) : Result := .next (s.setSt (s.reg x))

end Sys2Proof.Machine
end

