-- ==== Sys2Proof/Machine/Cycle.lean ====
section
/-! DEFINITION. One cycle (30_encoding.md R95): bounds check, fetch, advance, decode, execute, tick. -/

namespace Sys2Proof.Machine

/-- The word fetched at PC: `MemRead(a, 1) ++ MemRead(a + 1, 1)`, high byte first (20_memory.md R65). -/
def State.fetchWord (s : State) : Word := wordOfBytes (s.mem.read s.pc.toNat) (s.mem.read (s.pc.toNat + 1))

/-- PC <- a + 2 (30_encoding.md R96). -/
def State.advance (s : State) : State := s.setPc (s.pc + 2)

/-- What the cycle adds after execute: nothing when the instruction faulted (60_exceptions.md R232), else the tick
(30_encoding.md R95). -/
def afterExec : Result → Result
  | .next t => .next (if t.phase = .halted then t else t.completeCycle)
  | .fault r => .fault r
  | .refused r => .refused r

/-- The cycle after the fetch of word w at PC. -/
def runWord (w : Word) (s : State) : Result :=
  match decode w with
  | .error _ => .next (s.takeFault .decodeError (some w) s.pc none)
  | .ok i => afterExec (exec i s.advance)

/-- One cycle in phase Reset or Running: the fetch's bounds check comes before the opcode is read (20_memory.md R64). -/
def runCycle (s : State) : Result :=
  match outOfRange s.pc.toNat 2 with
  | some d => .next (s.takeFault .memoryBounds none s.pc (some d))
  | none => runWord s.fetchWord s

/-- One request of the operation cycle (30_encoding.md R95): in phase Halted it changes nothing (60_exceptions.md R233). -/
def cycle (s : State) : Result :=
  match s.phase with
  | .halted => .next s
  | .reset | .running => runCycle s

/-- s in a phase that runs cycles, with a PC that a word can be fetched from (log 8). -/
def State.readyToFetch (s : State) : State :=
  let s1 : State := if s.phase = .halted then { s with phase := .running, fault := none } else s
  if s1.pc.toNat + 1 < Config.memSize then s1 else s1.setPc 0x200

/-- s with word w where the next cycle fetches. -/
def State.placeWord (s : State) (w : Word) : State :=
  let s1 := s.readyToFetch
  s1.setMem (s1.mem.writeBytes s1.pc.toNat [(bytesOfWord w).1, (bytesOfWord w).2])

end Sys2Proof.Machine
end

