-- ==== Sys2Proof/Machine/Step.lean ====
section
/-! DEFINITION. One step of the machine is one cycle request (00_scope.md R7), and how a word is placed for it to run. -/

namespace Sys2Proof.Machine

/-- One step: one request of `cycle` (30_encoding.md R95). -/
def step (s : State) : Host.Outcome State Fault Refusal := cycle s

/-- s with the instruction the opcode table's bits give stored at PC, so that the next step runs exactly it. Nothing else
changes, but that a halted block runs again and a PC with no two bytes to fetch becomes 0x200 (log 8). -/
def State.withFetchWord (s : State) (nbits w : Nat) : State := s.placeWord (tableWord nbits w)

end Sys2Proof.Machine
end

