-- ==== Sys2Proof/Machine/HostOps.lean ====
section
/-! DEFINITION. The operations the block offers its host (10_state.md R43), each atomic and between cycles: reset, load,
set_keys, cycle and reading the outputs; and how a run is launched (70_reset_and_hazards.md R272, R287). -/

namespace Sys2Proof.Machine

/-- What load answers (20_memory.md R74). TooLarge is a result, not a fault of a cycle (60_exceptions.md R230). -/
inductive LoadResult where
  /-- Ok, with the state after the load -/
  | ok (s : State)
  /-- LoadError(TooLarge): the state is as before, and the host may load again -/
  | tooLarge
  /-- the request has no meaning: the phase is not Reset, or a load has succeeded before -/
  | refused
  deriving DecidableEq, Repr

/-- load(rom) (20_memory.md R74). -/
def State.load (s : State) (rom : List Byte) : LoadResult :=
  if s.phase = .reset ∧ s.loaded = false then
    if Config.romMax < rom.length then .tooLarge
    else .ok { s with mem := s.mem.writeBytes Config.programBase rom, loaded := true }
  else .refused

/-- set_keys(k) (10_state.md R43, R46): allowed between cycles in every phase. -/
def State.setKeys (s : State) (k : Keys) : State := { s with keys := k }

/-- The sound flag: ST > 0 (10_state.md R44). -/
def State.soundFlag (s : State) : Bool := decide (s.st ≠ 0)

/-- What the host can read between cycles (10_state.md R43). -/
structure Outputs where
  display : Display
  soundFlag : Bool
  phase : Phase
  fault : Option FaultRecord
  deriving DecidableEq, Repr

/-- read outputs (10_state.md R43). -/
def State.outputs (s : State) : Outputs := ⟨s.display, s.soundFlag, s.phase, s.fault⟩

/-- One request of the host (10_state.md R43). -/
inductive HostOp where
  | reset
  | load (rom : List Byte)
  | setKeys (k : Keys)
  | cycle
  | readOutputs
  deriving DecidableEq, Repr

/-- The state after a request. A load with LoadError leaves the state as it was; a load that is not allowed has no meaning
(20_memory.md R74; log 17). -/
def State.serve (s : State) : HostOp → Result
  | .reset => .next s.hostReset
  | .load rom =>
    match s.load rom with
    | .ok t => .next t
    | .tooLarge => .next s
    | .refused => .refused .loadNotAllowed
  | .setKeys k => .next (s.setKeys k)
  | .cycle => step s
  | .readOutputs => .next s

/-- The state a run starts from: reset, then a successful load, then the host's keys (70_reset_and_hazards.md R272, R287);
none when the load fails. -/
def launch (rom : List Byte) (k : Keys) : Option State :=
  match State.reset.load rom with
  | .ok t => some (t.setKeys k)
  | .tooLarge | .refused => none

end Sys2Proof.Machine
end

