-- ==== Sys2Proof/Safety.lean ====
section
/-! DEFINITION. What a safe run is, in the terms claims use: the invariant of the block, the ends of a run, and the frame
vocabulary, one name for each part of the state. -/

namespace Sys2Proof.Machine

/-- A state a run can reach keeps these (the invariant every step keeps). -/
structure State.Inv (s : State) : Prop where
  /-- the memory is in its canonical form -/
  memWf : s.mem.wf = true
  /-- SP never holds a value above 16 (10_state.md R31) -/
  spLegal : s.sp.toNat ≤ 16
  /-- every value written to PC is at most 0x10FE (10_state.md R27) -/
  pcBound : s.pc.toNat ≤ 0x10FE
  /-- a stack entry holds a value 2nnn wrote, at most 0x1000 (10_state.md R27) -/
  entryBound : ∀ j : Fin 16, (s.stack[j]).toNat ≤ 0x1000
  /-- the fault record is set exactly in phase Halted (10_state.md R40) -/
  faultIffHalted : s.fault.isSome = true ↔ s.phase = .halted

/-- A final state: phase Running, and the word at PC = p is 0x1000 | p, a park (70_reset_and_hazards.md R286). -/
def State.Final (s : State) : Prop :=
  s.phase = .running ∧ s.pc.toNat ≤ 0xFFE ∧ s.fetchWord = (0x1000 ||| s.pc)

/-- A failed state: phase Halted (70_reset_and_hazards.md R286). -/
def State.Failed (s : State) : Prop := s.phase = .halted

/-- A safe run of k cycles from s: the machine never stops and no cycle faults. -/
def SafeRun (k : Nat) (s : State) : Prop := ∃ t, Sys2Proof.core.run k s = .next t ∧ ¬ State.Failed t

/-! ### Parts of the state, for frames -/

/-- Every part of the state, one name each (10_state.md R20, and the model's own counter). -/
inductive Part where
  | byte (a : Nat)
  | reg (r : RegIdx)
  | index
  | pc
  | sp
  | entry (j : Fin 16)
  | delay
  | sound
  | key (k : Fin 16)
  | cell (c : Fin 64) (r : Fin 32)
  | phase
  | fault
  | loaded
  | draws
  deriving DecidableEq, Repr

/-- The part has the same value in s and t; a byte of memory is compared by reading it. -/
def Part.Same (s t : State) : Part → Prop
  | .byte a => t.mem.read a = s.mem.read a
  | .reg r => t.reg r = s.reg r
  | .index => t.i = s.i
  | .pc => t.pc = s.pc
  | .sp => t.sp = s.sp
  | .entry j => t.stack[j] = s.stack[j]
  | .delay => t.dt = s.dt
  | .sound => t.st = s.st
  | .key k => t.key k = s.key k
  | .cell c r => t.display.cell c r = s.display.cell c r
  | .phase => t.phase = s.phase
  | .fault => t.fault = s.fault
  | .loaded => t.loaded = s.loaded
  | .draws => t.draws = s.draws

/-- From s to t every part keeps its value, but those W names. -/
def Frame (W : Part → Prop) (s t : State) : Prop := ∀ p, ¬ W p → Part.Same s t p

/-- A cycle that executed instruction i to its end: the block was not halted, the bytes at PC decode to i, and no fault
was raised. -/
def Completes (i : Instr) (s t : State) : Prop :=
  s.phase ≠ .halted ∧ s.pc.toNat ≤ 0xFFE ∧ decode s.fetchWord = .ok i ∧ step s = .next t ∧ t.phase ≠ .halted

/-! ### The spec's tables over all instructions, for whole-machine claims; no meaning uses them -/

/-- Which fault of its own an instruction may raise (60_exceptions.md R231). -/
def mayRaise : Instr → FaultKind → Bool
  | .ret, .stackUnderflow => true
  | .call _, .stackOverflow => true
  | .drw _ _ _, .memoryBounds | .ldB _, .memoryBounds | .storeRegs _, .memoryBounds | .loadRegs _, .memoryBounds => true
  | .skp _, .keyIndex | .sknp _, .keyIndex => true
  | _, _ => false

/-- Which general registers an instruction writes (10_state.md R23). -/
def writesReg : Instr → RegIdx → Bool
  | .ldByte x _, r | .addByte x _, r | .ldReg x _, r | .orReg x _, r | .andReg x _, r | .xorReg x _, r
  | .rnd x _, r | .ldVxDt x, r | .ldVxK x, r => decide (r = x)
  | .addReg x _, r | .subReg x _, r | .subnReg x _, r | .shr x _, r | .shl x _, r => decide (r = x) || decide (r = 15)
  | .drw _ _ _, r => decide (r = 15)
  | .loadRegs x, r => decide (r ≤ x)
  | _, _ => false

/-- Which bytes an instruction stores to, from I on (20_memory.md R63). -/
def storesTo (s : State) : Instr → Nat → Bool
  | .ldB _, a => decide (s.i.toNat ≤ a ∧ a < s.i.toNat + 3)
  | .storeRegs x, a => decide (s.i.toNat ≤ a ∧ a ≤ s.i.toNat + x.val)
  | _, _ => false

/-- The condition of each skip (40_control_flow.md R124 to R127, 44_keypad_timers.md R210, R211). -/
def skips (s : State) : Instr → Bool
  | .seByte x kk => decide (s.reg x = kk)
  | .sneByte x kk => decide (s.reg x ≠ kk)
  | .seReg x y => decide (s.reg x = s.reg y)
  | .sneReg x y => decide (s.reg x ≠ s.reg y)
  | .skp x => s.key (Fin.ofNat 16 (s.reg x).toNat)
  | .sknp x => !s.key (Fin.ofNat 16 (s.reg x).toNat)
  | _ => false

/-- PC after a completed cycle that executed the instruction at PC = a, from the state at the cycle's start, as a number
(10_state.md R25). -/
def pcAfter (s : State) (i : Instr) : Nat :=
  match i with
  | .ret => (s.stack[Fin.ofNat 16 (s.sp.toNat - 1)]).toNat
  | .jp nnn | .call nnn => nnn.toNat
  | .jpV0 nnn => nnn.toNat + (s.reg 0).toNat
  | .ldVxK _ => if ∀ k : Fin 16, s.key k = false then s.pc.toNat else s.pc.toNat + 2
  | i => if skips s i then s.pc.toNat + 4 else s.pc.toNat + 2

/-- Whether the n-row sprite at address base, drawn from origin (x0, y0) with x0 < 64 and y0 < 32, has a 1 bit over cell
(c, r): the cell lies dc columns right of and dr rows below the origin, counted with wrap, within 8 columns and n rows, and
bit 7 - dc of row byte dr is 1 (43_display.md R191, R192). -/
def spriteBit (m : Memory) (base x0 y0 n : Nat) (c : Fin 64) (r : Fin 32) : Bool :=
  let dc := (c.val + 64 - x0) % 64
  let dr := (r.val + 32 - y0) % 32
  decide (dc < 8) && decide (dr < n) && (m.read (base + dr)).getLsbD (7 - dc)

/-! ### Shapes that several statements share -/

/-- i answers a next state in which V[x] is b and nothing else has changed. -/
def WritesOnlyReg (i : Instr) (x : RegIdx) (b : Byte) (s : State) : Prop :=
  ∃ t, exec i s = .next t ∧ t.reg x = b ∧ Frame (· = .reg x) s t

/-- i answers a next state in which PC is 2 more when c holds, as it was when c does not, and nothing else has changed
(40_control_flow.md R120). -/
def SkipsExactlyWhen (i : Instr) (c : Prop) (s : State) : Prop :=
  ∃ t, exec i s = .next t ∧ (c → t.pc = s.pc + 2) ∧ (¬ c → t.pc = s.pc) ∧ Frame (· = .pc) s t

/-- i takes a fault of this kind with this detail: PC is the instruction's address again, the phase is Halted, the record
is set, and nothing else has changed (60_exceptions.md R232). -/
def Faults (i : Instr) (kind : FaultKind) (detail : Option Nat) (s : State) : Prop :=
  ∃ t, exec i s = .next t ∧ t.pc = s.pc - 2 ∧ t.phase = .halted ∧
    t.fault = some ⟨kind, some (encode i), s.pc - 2, detail⟩ ∧
    Frame (fun p => p = .pc ∨ p = .phase ∨ p = .fault) s t

/-- Two states that differ at most in stack entries at or above SP (10_state.md R36). -/
def SameButStaleEntries (s s' : State) : Prop :=
  s' = { s with stack := s'.stack } ∧ ∀ j : Fin 16, j.val < s.sp.toNat → s'.stack[j] = s.stack[j]

end Sys2Proof.Machine
end

