-- ==== Sys2Proof/Certificates/Slice0/Obligations.lean ====
section
/-! DEFINITION. The statements for the provers. Where a statement starts from exec, its state is that of the execute step:
PC = a + 2 (30_encoding.md R96). -/

open Sys2Proof Sys2Proof.Machine

/-! ### Encoding -/

/-- Words of the spec's encoding vectors (95_test_vectors.md E1 to E17) decode to what they stand for. -/
def Obligations.SpecVectorWordsDecode : Prop :=
  decode 0xD3A7 = .ok (.drw 3 0xA 7) ∧ decode 0x00E0 = .ok .cls ∧ decode 0x00EE = .ok .ret ∧
  decode 0x8AB6 = .ok (.shr 0xA 0xB) ∧ decode 0xF165 = .ok (.loadRegs 1) ∧ decode 0x1FFF = .ok (.jp 0xFFF) ∧
  decode 0x0000 = .error .category0 ∧ decode 0x5121 = .error .category5 ∧ decode 0x8128 = .error .category8 ∧
  decode 0x912E = .error .category9 ∧ decode 0xE1A2 = .error .categoryE ∧ decode 0xF075 = .error .categoryF

/-- 30_encoding.md R84: the fields of every word, as numbers. -/
def Obligations.FieldsAreTheSlicesOfTheWord : Prop :=
  ∀ w : Word,
    (fieldC w).toNat = w.toNat / 0x1000 ∧ (fieldX w).val = w.toNat / 0x100 % 0x10 ∧
    (fieldY w).val = w.toNat / 0x10 % 0x10 ∧ (fieldN w).toNat = w.toNat % 0x10 ∧
    (fieldKK w).toNat = w.toNat % 0x100 ∧ (fieldNNN w).toNat = w.toNat % 0x1000

/-- Decoding the word of any well-formed instruction gives it back (30_encoding.md, sections 1 and 3). -/
def Obligations.DecodeOfEncodeIsTheInstruction : Prop :=
  ∀ i : Instr, i.wellFormed = true → decode (encode i) = .ok i

/-- A word that decodes is the word of the instruction it decodes to, which is well-formed: no bit of an encoding is
dropped (30_encoding.md, sections 1 and 3; that 8xy6 and 8xyE keep y is log 11). -/
def Obligations.EncodeOfDecodeIsTheWord : Prop :=
  ∀ (w : Word) (i : Instr), decode w = .ok i → encode i = w ∧ i.wellFormed = true

/-- 30_encoding.md R90: a word is a row's instruction exactly when w & mask = match, for each of the 34 rows. -/
def Obligations.DecodeFollowsTheOpcodeMap : Prop :=
  opcodeMap.length = 34 ∧
  ∀ r ∈ opcodeMap, ∀ w : Word, w &&& r.mask = r.bits ↔ ∃ i, decode w = .ok i ∧ i.pattern = r.pattern

/-- At most one row of the opcode map matches a word (30_encoding.md section 3, an inference of the spec). -/
def Obligations.AtMostOneRowMatches : Prop :=
  ∀ r ∈ opcodeMap, ∀ r' ∈ opcodeMap, ∀ w : Word, w &&& r.mask = r.bits → w &&& r'.mask = r'.bits → r = r'

/-- The illegal words, category by category (30_encoding.md section 4; the spec's decision D4). -/
def Obligations.IllegalWordsByCategory : Prop :=
  ∀ w : Word,
    let c := w.toNat / 0x1000
    let n := w.toNat % 0x10
    let kk := w.toNat % 0x100
    let nnn := w.toNat % 0x1000
    (∃ e, decode w = .error e) ↔
      (c = 0x0 ∧ nnn ≠ 0x0E0 ∧ nnn ≠ 0x0EE) ∨ (c = 0x5 ∧ n ≠ 0) ∨
      (c = 0x8 ∧ (n = 0x8 ∨ n = 0x9 ∨ n = 0xA ∨ n = 0xB ∨ n = 0xC ∨ n = 0xD ∨ n = 0xF)) ∨ (c = 0x9 ∧ n ≠ 0) ∨
      (c = 0xE ∧ kk ≠ 0x9E ∧ kk ≠ 0xA1) ∨
      (c = 0xF ∧ kk ≠ 0x07 ∧ kk ≠ 0x0A ∧ kk ≠ 0x15 ∧ kk ≠ 0x18 ∧ kk ≠ 0x1E ∧ kk ≠ 0x29 ∧ kk ≠ 0x33 ∧ kk ≠ 0x55 ∧
        kk ≠ 0x65)

/-! ### The cycle -/

/-- A step runs the decoded instruction: when the block is not halted and the two bytes at PC, high byte first, decode to i,
step is exec of i with PC advanced by 2; after it the timers tick and the phase is Running, unless a fault was taken. No
instruction is refused (with VF_ALIAS_FAULT at its default false, log 4). -/
def Obligations.StepRunsTheDecodedInstruction : Prop :=
  ∀ (s : State) (w : Word) (i : Instr), s.phase ≠ .halted → s.pc.toNat ≤ 0xFFE →
    w.toNat = (s.mem.read s.pc.toNat).toNat * 0x100 + (s.mem.read (s.pc.toNat + 1)).toNat → decode w = .ok i →
    (∀ t, exec i { s with pc := s.pc + 2 } = .next t →
      step s = .next (if t.phase = .halted then t else
        { t with dt := if t.dt = 0 then 0 else t.dt - 1, st := if t.st = 0 then 0 else t.st - 1, phase := .running })) ∧
    (∀ r, exec i { s with pc := s.pc + 2 } = .fault r → step s = .fault r) ∧
    ∀ r, exec i { s with pc := s.pc + 2 } ≠ .refused r

/-- The spec's decision D2: a cycle request in phase Halted changes nothing. -/
def Obligations.HaltedBlockIgnoresCycles : Prop :=
  ∀ s : State, s.phase = .halted → step s = .next s

/-- The spec's decisions D2, D3, D6: a fetch that would read above 0xFFF takes MemoryBounds with opcode none and the lowest
address above 0xFFF. -/
def Obligations.FetchPastTheEndFaults : Prop :=
  ∀ s : State, s.phase ≠ .halted → 0xFFF ≤ s.pc.toNat →
    step s = .next { s with phase := .halted
                            fault := some ⟨.memoryBounds, none, s.pc, some (if s.pc.toNat = 0xFFF then 0x1000 else s.pc.toNat)⟩ }

/-- The spec's decisions D2 to D5: a word that decodes to no instruction takes DecodeError with the word and its address. -/
def Obligations.IllegalWordFaults : Prop :=
  ∀ (s : State) (e : DecodeError), s.phase ≠ .halted → s.pc.toNat ≤ 0xFFE → decode s.fetchWord = .error e →
    step s = .next { s with phase := .halted, fault := some ⟨.decodeError, some s.fetchWord, s.pc, none⟩ }

/-- 60_exceptions.md R250: both timers count down by 1, floor 0, at the end of every completed cycle, after the instruction;
a faulting cycle and a cycle in phase Halted leave them. Only Fx15 and Fx18 write one before that. -/
def Obligations.TimersTickOncePerCompletedCycle : Prop :=
  ∀ s t : State, step s = .next t →
    (s.phase = .halted ∨ t.phase = .halted → t.dt = s.dt ∧ t.st = s.st) ∧
    (s.phase ≠ .halted → t.phase ≠ .halted → ∃ i u, decode s.fetchWord = .ok i ∧ exec i s.advance = .next u ∧
      t.dt.toNat = u.dt.toNat - 1 ∧ t.st.toNat = u.st.toNat - 1 ∧
      ((∀ x, i ≠ .ldDtVx x) → u.dt = s.dt) ∧ ((∀ x, i ≠ .ldStVx x) → u.st = s.st))

/-- A model's own statement about placing a word (log 8): a word placed for the next fetch is what the next step runs, from
every state with a canonical memory, and placing it changes only its two bytes, and PC or the phase where no fetch could
happen. -/
def Obligations.PlacedWordRunsNext : Prop :=
  ∀ (s : State) (w : Word) (i : Instr), s.mem.wf = true → decode w = .ok i →
    step (s.withFetchWord 16 w.toNat) = afterExec (exec i (s.withFetchWord 16 w.toNat).advance) ∧
    Frame (fun p => p = .byte (s.withFetchWord 16 w.toNat).pc.toNat ∨ p = .byte ((s.withFetchWord 16 w.toNat).pc.toNat + 1) ∨
      (0xFFF ≤ s.pc.toNat ∧ p = .pc) ∨ (s.phase = .halted ∧ (p = .phase ∨ p = .fault))) s (s.withFetchWord 16 w.toNat)

/-! ### Reset and the loader -/

/-- 70_reset_and_hazards.md R270: the reset state and the entry point; the reset operation gives the same state, but for the
model's own counter (log 9). -/
def Obligations.ResetStateIsAsStated : Prop :=
  (∀ (a : Nat) (h : a < 80), State.reset.mem.read a = Config.font ⟨a, h⟩) ∧
  (∀ a, 0x050 ≤ a → a ≤ 0xFFF → State.reset.mem.read a = 0) ∧
  (∀ r, State.reset.reg r = 0) ∧ State.reset.i = 0 ∧ State.reset.pc = 0x200 ∧ State.reset.sp = 0 ∧
  (∀ j : Fin 16, State.reset.stack[j] = 0) ∧ State.reset.dt = 0 ∧ State.reset.st = 0 ∧
  (∀ k, State.reset.key k = false) ∧ (∀ c r, State.reset.display.cell c r = false) ∧
  State.reset.phase = .reset ∧ State.reset.fault = none ∧ State.reset.loaded = false ∧
  State.reset.fetchWord = wordOfBytes (State.reset.mem.read 0x200) (State.reset.mem.read 0x201) ∧
  ∀ s : State, Frame (· = .draws) State.reset s.hostReset

/-- A cycle requested after reset without a load raises DecodeError at 0x200 (70_reset_and_hazards.md section 2, an
inference of the spec). -/
def Obligations.FirstCycleWithoutALoadFaults : Prop :=
  ∃ t, step State.reset = .next t ∧ t.phase = .halted ∧ t.fault = some ⟨.decodeError, some 0x0000, 0x200, none⟩ ∧
    t.pc = 0x200

/-- 20_memory.md R76: a load of at most 3584 bytes succeeds, reads back, and leaves every other byte at its reset value. -/
def Obligations.LoadedProgramReadsBack : Prop :=
  ∀ rom : List Byte, rom.length ≤ 3584 → ∃ t, State.reset.load rom = .ok t ∧
    (∀ (k : Nat) (h : k < rom.length), t.mem.read (0x200 + k) = rom[k]) ∧
    ∀ a, (a < 0x200 ∨ 0x200 + rom.length ≤ a) → t.mem.read a = State.reset.mem.read a

/-- The three answers of load, and the state each request leaves (the spec's decision D17): refused outside phase Reset with
loaded = 0, where the request has no meaning (log 17); LoadError(TooLarge) above 3584 bytes, which leaves the whole state as
it was; else Ok with the bytes copied and nothing else changed but loaded. -/
def Obligations.LoaderAnswers : Prop :=
  ∀ (s : State) (rom : List Byte), s.mem.wf = true →
    ((s.phase ≠ .reset ∨ s.loaded = true) →
      s.load rom = .refused ∧ s.serve (.load rom) = .refused .loadNotAllowed) ∧
    (s.phase = .reset → s.loaded = false → 3584 < rom.length →
      s.load rom = .tooLarge ∧ s.serve (.load rom) = .next s) ∧
    (s.phase = .reset → s.loaded = false → rom.length ≤ 3584 →
      ∃ t, s.load rom = .ok t ∧ s.serve (.load rom) = .next t ∧ t.loaded = true ∧
      (∀ (k : Nat) (h : k < rom.length), t.mem.read (0x200 + k) = rom[k]) ∧
      Frame (fun p => p = .loaded ∨ ∃ k, k < rom.length ∧ p = .byte (0x200 + k)) s t)

/-! ### The invariant -/

/-- The reset state meets the invariant. -/
def Obligations.ResetMeetsTheInvariant : Prop := State.reset.Inv

/-- Every step keeps the invariant: the memory stays canonical, SP at most 16, PC at most 0x10FE, stack entries at most
0x1000, and the fault record set exactly in phase Halted. -/
def Obligations.EveryStepKeepsTheInvariant : Prop :=
  ∀ s t : State, s.Inv → step s = .next t → t.Inv

/-- Every request of the host keeps the invariant. -/
def Obligations.EveryHostRequestKeepsTheInvariant : Prop :=
  ∀ (s t : State) (op : HostOp), s.Inv → s.serve op = .next t → t.Inv

/-- From every state that meets the invariant a step answers a next state: the model neither faults nor refuses there (with
VF_ALIAS_FAULT at its default false, log 4). -/
def Obligations.EveryStepFromTheInvariantAnswers : Prop :=
  ∀ s : State, s.Inv → ∃ t, step s = .next t

/-- A run of any length from a state that meets the invariant goes on, and ends in a state that meets it. -/
def Obligations.EveryRunFromTheInvariantGoesOn : Prop :=
  ∀ (k : Nat) (s : State), s.Inv → ∃ t, Sys2Proof.core.run k s = .next t ∧ t.Inv

/-! ### Whole-machine rules -/

/-- The spec's decisions D2, D3: a fault is precise. The state is as before the cycle but for the phase and the record, and
the record names the instruction's address and its word, or none when the fetch faulted. -/
def Obligations.FaultsArePrecise : Prop :=
  ∀ s t : State, s.phase ≠ .halted → step s = .next t → t.phase = .halted →
    ∃ rec : FaultRecord, t = { s with phase := .halted, fault := some rec } ∧ rec.pc = s.pc ∧
      ((s.pc.toNat ≤ 0xFFE ∧ rec.opcode = some s.fetchWord) ∨ (0xFFE < s.pc.toNat ∧ rec.opcode = none))

/-- The complete list of faults per instruction (60_exceptions.md section 1, an inference of the spec). -/
def Obligations.EachInstructionRaisesOnlyItsFaults : Prop :=
  ∀ (i : Instr) (s t : State), s.phase ≠ .halted → exec i s = .next t → t.phase = .halted →
    ∃ k d, mayRaise i k = true ∧ t.fault = some ⟨k, some (encode i), s.pc - 2, d⟩

/-- set_keys changes K and nothing else, in every phase (10_state.md section 9; the spec's decision D18); and only reset
leaves phase Halted (the spec's decision D2): there set_keys keeps the phase, cycles and reads change nothing, and load is
refused. -/
def Obligations.OnlyResetLeavesHalted : Prop :=
  (∀ (s : State) (k : Keys), ∃ t, s.serve (.setKeys k) = .next t ∧ t.keys = k ∧ Frame (fun p => ∃ j, p = .key j) s t) ∧
  ∀ s : State, s.phase = .halted →
    s.serve .cycle = .next s ∧ s.serve .readOutputs = .next s ∧
    (∀ rom, s.serve (.load rom) = .refused .loadNotAllowed) ∧
    ∃ t, s.serve .reset = .next t ∧ t.phase = .reset ∧ t.fault = none

/-- Which general registers a completed cycle can change (10_state.md section 2, a table the spec derives). -/
def Obligations.RegistersAreWrittenAsTheTableSays : Prop :=
  ∀ (i : Instr) (s t : State) (r : RegIdx), Completes i s t → writesReg i r = false → t.reg r = s.reg r

/-- PC after every completed cycle (10_state.md section 3, a table the spec derives; no 16-bit wrap happens). -/
def Obligations.PcAfterEachInstruction : Prop :=
  ∀ (i : Instr) (s t : State), Completes i s t → t.pc.toNat = pcAfter s i

/-- Only Fx33 and Fx55 store to memory, and only to the bytes from I on that they name (20_memory.md section 1). -/
def Obligations.OnlyStoresChangeMemory : Prop :=
  ∀ (i : Instr) (s t : State) (a : Nat), Completes i s t → storesTo s i a = false → t.mem.read a = s.mem.read a

/-- Only 00E0 and Dxyn change the display, and no instruction changes the keypad (10_state.md section 7). -/
def Obligations.DisplayAndKeypadWriters : Prop :=
  ∀ (i : Instr) (s t : State), Completes i s t →
    (t.display ≠ s.display → i = .cls ∨ ∃ x y n, i = .drw x y n) ∧ t.keys = s.keys

/-- Only 2nnn changes a stack entry, only 2nnn and 00EE change SP, and only Annn, Fx1E and Fx29 change I
(10_state.md sections 5 and 6). -/
def Obligations.StackAndIndexWriters : Prop :=
  ∀ (i : Instr) (s t : State), Completes i s t →
    (t.stack ≠ s.stack → ∃ nnn, i = .call nnn) ∧ (t.sp ≠ s.sp → i = .ret ∨ ∃ nnn, i = .call nnn) ∧
    (t.i ≠ s.i → (∃ nnn, i = .ldI nnn) ∨ (∃ x, i = .addI x) ∨ ∃ x, i = .ldF x)

/-- rnd is used only by Cxkk and key_choice only by Fx0A (30_encoding.md section 5): what every other instruction does is
the same whichever free values come next; none is refused (log 4). -/
def Obligations.FreeInputsReachOnlyTheirInstructions : Prop :=
  ∀ (i : Instr) (s : State) (d : Nat), (∀ x kk, i ≠ .rnd x kk) → (∀ x, i ≠ .ldVxK x) →
    (∀ t, exec i s = .next t → exec i { s with draws := d } = .next { t with draws := d }) ∧
    (∀ r, exec i s = .fault r → exec i { s with draws := d } = .fault r) ∧
    ∀ r, exec i s ≠ .refused r

/-- The spec's decision D24: no step can tell apart two states that differ only in stack entries at or above SP. -/
def Obligations.StaleStackEntriesAreInvisible : Prop :=
  ∀ s s' t : State, SameButStaleEntries s s' → step s = .next t → ∃ t', step s' = .next t' ∧ SameButStaleEntries t t'

/-- A park leaves every piece of state unchanged except that it decrements the timers, and the phase is Running
(70_reset_and_hazards.md section 5, an inference of the spec). -/
def Obligations.ParkOnlyTicksTheTimers : Prop :=
  ∀ s : State, s.phase ≠ .halted → s.pc.toNat ≤ 0xFFE → s.fetchWord = (0x1000 ||| s.pc) →
    step s = .next { s with dt := if s.dt = 0 then 0 else s.dt - 1, st := if s.st = 0 then 0 else s.st - 1,
                            phase := .running }

/-- The spec's decision D22: a final state is followed by final states only, so every run from one is safe. -/
def Obligations.RunsFromAFinalStateAreSafe : Prop :=
  ∀ (s : State), s.Final → ∀ k, SafeRun k s ∧ ∃ t, Sys2Proof.core.run k s = .next t ∧ t.Final ∧ t.pc = s.pc

/-- 2nnn, then any code that leaves the stack as it found it, then 00EE: control returns to the instruction after the call
(40_control_flow.md section 2, corner cases of R123). -/
def Obligations.CallThenReturnComesBack : Prop :=
  ∀ (s : State) (nnn : Addr12), s.sp.toNat < 16 → ∃ t, exec (.call nnn) s = .next t ∧
    ∀ u : State, u.sp = t.sp → (∀ j : Fin 16, j.val < t.sp.toNat → u.stack[j] = t.stack[j]) →
      ∃ v, exec .ret u = .next v ∧ v.pc = s.pc ∧ v.sp = s.sp

/-- The spec's decision D23: the bytes Fx55 stores are what a later fetch from their addresses reads, high byte first. -/
def Obligations.StoredBytesAreFetched : Prop :=
  ∀ (s : State) (x : RegIdx), s.mem.wf = true → s.i.toNat + x.val ≤ 0xFFF → ∃ t, exec (.storeRegs x) s = .next t ∧
    ∀ (j k : Fin 16) (u : State), k.val = j.val + 1 → k ≤ x → u.mem = t.mem → u.pc.toNat = s.i.toNat + j.val →
      u.fetchWord = wordOfBytes (s.reg j) (s.reg k)

/-! ### Display -/

/-- 43_display.md R190: 00E0 clears every cell and changes nothing else. -/
def Obligations.ClearDisplay : Prop :=
  ∀ s : State, ∃ t, exec .cls s = .next t ∧ (∀ c r, t.display.cell c r = false) ∧
    Frame (fun p => ∃ c r, p = .cell c r) s t

/-- Dxyn with its n rows in memory: every cell is XORed with the sprite's bit over it, VF is 1 if a lit cell met a 1 bit and
else 0, and nothing else changes (43_display.md; the spec's decisions D6, D10). -/
def Obligations.DrawXorsTheSprite : Prop :=
  ∀ (s : State) (x y : RegIdx) (n : Nat), n ≤ 15 → (n = 0 ∨ s.i.toNat + n - 1 ≤ 0xFFF) →
    ∃ t, exec (.drw x y n) s = .next t ∧
      (∀ c r, t.display.cell c r = ((s.display.cell c r) ^^
        spriteBit s.mem s.i.toNat ((s.reg x).toNat % 64) ((s.reg y).toNat % 32) n c r)) ∧
      ((∃ c r, s.display.cell c r = true ∧
        spriteBit s.mem s.i.toNat ((s.reg x).toNat % 64) ((s.reg y).toNat % 32) n c r = true) → t.reg 15 = 1) ∧
      ((¬ ∃ c r, s.display.cell c r = true ∧
        spriteBit s.mem s.i.toNat ((s.reg x).toNat % 64) ((s.reg y).toNat % 32) n c r = true) → t.reg 15 = 0) ∧
      Frame (fun p => p = .reg 15 ∨ ∃ c r, p = .cell c r) s t

/-- Drawing the same sprite twice at the same origin restores every cell, and the second draw sets VF to 1 exactly when a
cell under a 1 bit was 0 before the first (43_display.md section 3, an inference of the spec). -/
def Obligations.DrawTwiceRestoresTheDisplay : Prop :=
  ∀ (s : State) (x y : RegIdx) (n : Nat), n ≤ 15 → (n = 0 ∨ s.i.toNat + n - 1 ≤ 0xFFF) →
    ∃ t, exec (.drw x y n) s = .next t ∧
      ((t.reg x).toNat % 64 = (s.reg x).toNat % 64 → (t.reg y).toNat % 32 = (s.reg y).toNat % 32 →
        ∃ u, exec (.drw x y n) t = .next u ∧ u.display = s.display ∧
          (u.reg 15 = 1 ↔ ∃ c r, s.display.cell c r = false ∧
            spriteBit s.mem s.i.toNat ((s.reg x).toNat % 64) ((s.reg y).toNat % 32) n c r = true))

/-! ### Control flow -/

/-- 00EE: SP goes down by 1 and PC becomes the entry there, which stays; with SP = 0 it takes StackUnderflow
(40_control_flow.md section 2; what the fault does is the spec's decisions D2, D3). -/
def Obligations.ReturnPopsTheStack : Prop :=
  ∀ s : State,
    (∀ j : Fin 16, s.sp.toNat = j.val + 1 → ∃ t, exec .ret s = .next t ∧ t.sp.toNat = j.val ∧ t.pc = s.stack[j] ∧
      Frame (fun p => p = .sp ∨ p = .pc) s t) ∧
    (s.sp = 0 → Faults .ret .stackUnderflow none s)

/-- 40_control_flow.md R122: 1nnn writes nnn, zero-extended, to PC and changes nothing else. -/
def Obligations.JumpSetsPc : Prop :=
  ∀ (s : State) (nnn : Addr12), ∃ t, exec (.jp nnn) s = .next t ∧ t.pc.toNat = nnn.toNat ∧ Frame (· = .pc) s t

/-- 2nnn: the return address a + 2 goes to S[SP], SP up by 1, PC becomes nnn; with SP = 16 it takes StackOverflow
(40_control_flow.md section 2; what the fault does is the spec's decisions D2, D3). -/
def Obligations.CallPushesTheReturnAddress : Prop :=
  ∀ (s : State) (nnn : Addr12),
    (∀ j : Fin 16, s.sp.toNat = j.val → ∃ t, exec (.call nnn) s = .next t ∧ t.stack[j] = s.pc ∧
      t.sp.toNat = j.val + 1 ∧ t.pc.toNat = nnn.toNat ∧ Frame (fun p => p = .entry j ∨ p = .sp ∨ p = .pc) s t) ∧
    (s.sp = 16 → Faults (.call nnn) .stackOverflow none s)

/-- 40_control_flow.md R124 to R127: the four register skips add 2 to PC exactly when their condition holds, and change
nothing else. -/
def Obligations.RegisterSkips : Prop :=
  ∀ (s : State) (x y : RegIdx) (kk : Byte),
    SkipsExactlyWhen (.seByte x kk) (s.reg x = kk) s ∧ SkipsExactlyWhen (.sneByte x kk) (s.reg x ≠ kk) s ∧
    SkipsExactlyWhen (.seReg x y) (s.reg x = s.reg y) s ∧ SkipsExactlyWhen (.sneReg x y) (s.reg x ≠ s.reg y) s

/-- Bnnn: PC becomes nnn + V[0], not reduced to 12 bits, and nothing else changes (40_control_flow.md section 2; the spec's
decision D27). -/
def Obligations.IndexedJumpAddsV0 : Prop :=
  ∀ (s : State) (nnn : Addr12), ∃ t, exec (.jpV0 nnn) s = .next t ∧ t.pc.toNat = nnn.toNat + (s.reg 0).toNat ∧
    Frame (· = .pc) s t

/-! ### Arithmetic -/

/-- 41_alu.md R141 to R146: 6xkk, 7xkk (modulo 256, no flag), 8xy0, 8xy1, 8xy2, 8xy3 write V[x] and nothing else. -/
def Obligations.LoadAddAndLogicWriteOnlyVx : Prop :=
  ∀ (s : State) (x y : RegIdx) (kk : Byte),
    WritesOnlyReg (.ldByte x kk) x kk s ∧
    WritesOnlyReg (.addByte x kk) x (BitVec.ofNat 8 (((s.reg x).toNat + kk.toNat) % 256)) s ∧
    WritesOnlyReg (.ldReg x y) x (s.reg y) s ∧ WritesOnlyReg (.orReg x y) x (s.reg x ||| s.reg y) s ∧
    WritesOnlyReg (.andReg x y) x (s.reg x &&& s.reg y) s ∧ WritesOnlyReg (.xorReg x y) x (s.reg x ^^^ s.reg y) s

/-- 41_alu.md R150: 8xy4 writes the sum modulo 256 and then the carry of the sum not reduced, so VF ends as the carry. -/
def Obligations.AddRegistersWithCarry : Prop :=
  ∀ (s : State) (x y : RegIdx), ∃ t, exec (.addReg x y) s = .next t ∧
    (t.reg 15).toNat = (if (s.reg x).toNat + (s.reg y).toNat > 255 then 1 else 0) ∧
    (x ≠ 15 → (t.reg x).toNat = ((s.reg x).toNat + (s.reg y).toNat) % 256) ∧
    Frame (fun p => p = .reg x ∨ p = .reg 15) s t

/-- 8xy5 and 8xy7: the flag is 1 when the minuend is strictly greater, and then the difference modulo 256 is written, so with
x = F VF ends as the difference (41_alu.md section 2; the aliased cases are the spec's decision D9, log 4). -/
def Obligations.SubtractionsAndTheirFlag : Prop :=
  ∀ (s : State) (x y : RegIdx),
    (∃ t, exec (.subReg x y) s = .next t ∧
      (t.reg x).toNat = ((s.reg x).toNat + 256 - (s.reg y).toNat) % 256 ∧
      (x ≠ 15 → (t.reg 15).toNat = if (s.reg x).toNat > (s.reg y).toNat then 1 else 0) ∧
      Frame (fun p => p = .reg x ∨ p = .reg 15) s t) ∧
    (∃ t, exec (.subnReg x y) s = .next t ∧
      (t.reg x).toNat = ((s.reg y).toNat + 256 - (s.reg x).toNat) % 256 ∧
      (x ≠ 15 → (t.reg 15).toNat = if (s.reg y).toNat > (s.reg x).toNat then 1 else 0) ∧
      Frame (fun p => p = .reg x ∨ p = .reg 15) s t)

/-- 8xy6 and 8xyE shift V[x] by one, whatever y is, and the bit shifted out goes to VF first (41_alu.md section 2; x = F is
the spec's decision D9, log 4). -/
def Obligations.ShiftsMoveOneBitOut : Prop :=
  ∀ (s : State) (x y : RegIdx),
    (∃ t, exec (.shr x y) s = .next t ∧ (t.reg x).toNat = (s.reg x).toNat / 2 ∧
      (x ≠ 15 → (t.reg 15).toNat = (s.reg x).toNat % 2) ∧ Frame (fun p => p = .reg x ∨ p = .reg 15) s t) ∧
    (∃ t, exec (.shl x y) s = .next t ∧ (t.reg x).toNat = (s.reg x).toNat * 2 % 256 ∧
      (x ≠ 15 → (t.reg 15).toNat = (s.reg x).toNat / 128) ∧ Frame (fun p => p = .reg x ∨ p = .reg 15) s t)

/-- A block built with VF_ALIAS_FAULT = true refuses exactly the forms whose result rests on the reading, and gives the other
forms the meaning they have without it (41_alu.md section 3; the spec's decision D9, log 4). -/
def Obligations.AliasedFormsRefusedUnderTheParameter : Prop :=
  ∀ (s : State) (x y : RegIdx),
    ((x = 15 ∨ y = 15) → subRegWith true x y s = .refused .vfAlias ∧ subnRegWith true x y s = .refused .vfAlias) ∧
    (x = 15 → shrWith true x s = .refused .vfAlias ∧ shlWith true x s = .refused .vfAlias) ∧
    (x ≠ 15 → y ≠ 15 → subRegWith true x y s = exec (.subReg x y) s ∧ subnRegWith true x y s = exec (.subnReg x y) s) ∧
    (x ≠ 15 → shrWith true x s = exec (.shr x y) s ∧ shlWith true x s = exec (.shl x y) s)

/-- Cxkk: V[x] becomes the cycle's random byte ANDed with kk, for every value of that free byte (41_alu.md section 2; the
spec's decision D14, log 2). -/
def Obligations.RandomByteIsMasked : Prop :=
  ∀ (s : State) (x : RegIdx) (kk : Byte), ∃ t, exec (.rnd x kk) s = .next t ∧
    t.reg x = (Config.rnd s.draws &&& kk) ∧ Frame (fun p => p = .reg x ∨ p = .draws) s t

/-! ### Index register and memory -/

/-- 42_index_memory.md R170: Annn writes nnn, zero-extended, to I and changes nothing else. -/
def Obligations.LoadIndexRegister : Prop :=
  ∀ (s : State) (nnn : Addr12), ∃ t, exec (.ldI nnn) s = .next t ∧ t.i.toNat = nnn.toNat ∧ Frame (· = .index) s t

/-- Fx1E adds V[x] to I modulo 65536, Fx29 sets I to 5 x V[x] with no masking; nothing else changes, VF included
(42_index_memory.md section 2; the spec's decisions D11, D26). -/
def Obligations.IndexArithmetic : Prop :=
  ∀ (s : State) (x : RegIdx),
    (∃ t, exec (.addI x) s = .next t ∧ t.i.toNat = (s.i.toNat + (s.reg x).toNat) % 65536 ∧ Frame (· = .index) s t) ∧
    (∃ t, exec (.ldF x) s = .next t ∧ t.i.toNat = 5 * (s.reg x).toNat ∧ Frame (· = .index) s t)

/-- Fx33 with its three bytes in memory stores the decimal digits of V[x], hundreds first, and changes nothing else
(42_index_memory.md section 2; the bounds check is the spec's decision D6). -/
def Obligations.DecimalDigitsAreStored : Prop :=
  ∀ (s : State) (x : RegIdx), s.mem.wf = true → s.i.toNat + 2 ≤ 0xFFF → ∃ t, exec (.ldB x) s = .next t ∧
    (t.mem.read s.i.toNat).toNat = (s.reg x).toNat / 100 ∧
    (t.mem.read (s.i.toNat + 1)).toNat = (s.reg x).toNat / 10 % 10 ∧
    (t.mem.read (s.i.toNat + 2)).toNat = (s.reg x).toNat % 10 ∧
    Frame (fun p => p = .byte s.i.toNat ∨ p = .byte (s.i.toNat + 1) ∨ p = .byte (s.i.toNat + 2)) s t

/-- Fx55 with its bytes in memory stores V[0] to V[x] from I on and changes nothing else, I included (42_index_memory.md
section 2; the bounds check is the spec's decision D6). -/
def Obligations.RegistersAreStored : Prop :=
  ∀ (s : State) (x : RegIdx), s.mem.wf = true → s.i.toNat + x.val ≤ 0xFFF → ∃ t, exec (.storeRegs x) s = .next t ∧
    (∀ j : RegIdx, j ≤ x → t.mem.read (s.i.toNat + j.val) = s.reg j) ∧
    Frame (fun p => ∃ j : RegIdx, j ≤ x ∧ p = .byte (s.i.toNat + j.val)) s t

/-- Fx65 with its bytes in memory loads V[0] to V[x] from I on and changes nothing else, I included (42_index_memory.md
section 2; the bounds check is the spec's decision D6). -/
def Obligations.RegistersAreLoaded : Prop :=
  ∀ (s : State) (x : RegIdx), s.i.toNat + x.val ≤ 0xFFF → ∃ t, exec (.loadRegs x) s = .next t ∧
    (∀ j : RegIdx, j ≤ x → t.reg j = s.mem.read (s.i.toNat + j.val)) ∧
    Frame (fun p => ∃ j : RegIdx, j ≤ x ∧ p = .reg j) s t

/-- An indexed access with a byte above 0xFFF takes MemoryBounds with the lowest address out of range, and accesses nothing
(20_memory.md section 2; the spec's decision D6). -/
def Obligations.IndexedAccessPastTheEndFaults : Prop :=
  ∀ (s : State) (x y : RegIdx) (n : Nat),
    (0xFFF < s.i.toNat + 2 → Faults (.ldB x) .memoryBounds (some (max s.i.toNat 0x1000)) s) ∧
    (0xFFF < s.i.toNat + x.val → Faults (.storeRegs x) .memoryBounds (some (max s.i.toNat 0x1000)) s) ∧
    (0xFFF < s.i.toNat + x.val → Faults (.loadRegs x) .memoryBounds (some (max s.i.toNat 0x1000)) s) ∧
    (0 < n → n ≤ 15 → 0xFFF < s.i.toNat + n - 1 →
      Faults (.drw x y n) .memoryBounds (some (max s.i.toNat 0x1000)) s)

/-! ### Keypad and timers -/

/-- Ex9E and ExA1 skip on the level of the key V[x] names, and take KeyIndex when V[x] is above 0xF (44_keypad_timers.md
section 1; the spec's decision D7). -/
def Obligations.KeySkips : Prop :=
  ∀ (s : State) (x : RegIdx),
    (∀ k : Fin 16, (s.reg x).toNat = k.val →
      SkipsExactlyWhen (.skp x) (s.key k = true) s ∧ SkipsExactlyWhen (.sknp x) (s.key k = false) s) ∧
    (0xF < (s.reg x).toNat → Faults (.skp x) .keyIndex (some (s.reg x).toNat) s ∧
      Faults (.sknp x) .keyIndex (some (s.reg x).toNat) s)

/-- 44_keypad_timers.md R212: Fx07 reads DT as it is before this cycle's decrement. -/
def Obligations.ReadDelayTimer : Prop :=
  ∀ (s : State) (x : RegIdx), WritesOnlyReg (.ldVxDt x) x s.dt s ∧
    ∀ t, Completes (.ldVxDt x) s t → t.reg x = s.dt ∧ t.dt.toNat = s.dt.toNat - 1

/-- Fx15 and Fx18 write V[x] to their timer and nothing else; the same cycle's decrement follows (44_keypad_timers.md
section 2, with an inference of the spec). -/
def Obligations.SetTimers : Prop :=
  ∀ (s : State) (x : RegIdx),
    (∃ t, exec (.ldDtVx x) s = .next t ∧ t.dt = s.reg x ∧ Frame (· = .delay) s t) ∧
    (∃ t, exec (.ldStVx x) s = .next t ∧ t.st = s.reg x ∧ Frame (· = .sound) s t) ∧
    (∀ t, Completes (.ldDtVx x) s t → t.dt.toNat = (s.reg x).toNat - 1) ∧
    (∀ t, Completes (.ldStVx x) s t → t.st.toNat = (s.reg x).toNat - 1 ∧
      t.soundFlag = decide (1 < (s.reg x).toNat))

/-- Fx0A: with no key pressed PC goes back to a and nothing else changes; else V[x] becomes the index of a pressed key, the
one key when only one is pressed, whatever the free choice is (44_keypad_timers.md section 1; the spec's decisions D8, D28,
log 3). -/
def Obligations.WaitForKey : Prop :=
  ∀ (s : State) (x : RegIdx),
    ((∀ k, s.key k = false) → ∃ t, exec (.ldVxK x) s = .next t ∧ t.pc = s.pc - 2 ∧ Frame (· = .pc) s t) ∧
    ((∃ k, s.key k = true) → ∃ t k, exec (.ldVxK x) s = .next t ∧ s.key k = true ∧ (t.reg x).toNat = k.val ∧
      Frame (fun p => p = .reg x ∨ p = .draws) s t) ∧
    (∀ k, s.key k = true → (∀ j, s.key j = true → j = k) → ∃ t, exec (.ldVxK x) s = .next t ∧ (t.reg x).toNat = k.val)
end

