-- ==== Sys2Proof/Laws/State.lean ====
section
/-! SUPPORT. One lemma per field per update, true by rfl, so that no proof unfolds a record update; and the accessors V[r], K[k]
and D(c, r) over the updates. -/

set_option Elab.async false

namespace Sys2Proof.Machine

variable (s : State)

/-! ### setReg -/

@[simp] theorem State.setReg_mem (r : RegIdx) (b : Byte) : (s.setReg r b).mem = s.mem := rfl
@[simp] theorem State.setReg_v (r : RegIdx) (b : Byte) : (s.setReg r b).v = s.v.set r b := rfl
@[simp] theorem State.setReg_i (r : RegIdx) (b : Byte) : (s.setReg r b).i = s.i := rfl
@[simp] theorem State.setReg_pc (r : RegIdx) (b : Byte) : (s.setReg r b).pc = s.pc := rfl
@[simp] theorem State.setReg_sp (r : RegIdx) (b : Byte) : (s.setReg r b).sp = s.sp := rfl
@[simp] theorem State.setReg_stack (r : RegIdx) (b : Byte) : (s.setReg r b).stack = s.stack := rfl
@[simp] theorem State.setReg_dt (r : RegIdx) (b : Byte) : (s.setReg r b).dt = s.dt := rfl
@[simp] theorem State.setReg_st (r : RegIdx) (b : Byte) : (s.setReg r b).st = s.st := rfl
@[simp] theorem State.setReg_keys (r : RegIdx) (b : Byte) : (s.setReg r b).keys = s.keys := rfl
@[simp] theorem State.setReg_display (r : RegIdx) (b : Byte) : (s.setReg r b).display = s.display := rfl
@[simp] theorem State.setReg_phase (r : RegIdx) (b : Byte) : (s.setReg r b).phase = s.phase := rfl
@[simp] theorem State.setReg_fault (r : RegIdx) (b : Byte) : (s.setReg r b).fault = s.fault := rfl
@[simp] theorem State.setReg_loaded (r : RegIdx) (b : Byte) : (s.setReg r b).loaded = s.loaded := rfl
@[simp] theorem State.setReg_draws (r : RegIdx) (b : Byte) : (s.setReg r b).draws = s.draws := rfl
@[simp] theorem State.setReg_key (r : RegIdx) (b : Byte) (j : Fin 16) : (s.setReg r b).key j = s.key j := rfl

/-! ### setPc -/

@[simp] theorem State.setPc_mem (t : Word) : (s.setPc t).mem = s.mem := rfl
@[simp] theorem State.setPc_v (t : Word) : (s.setPc t).v = s.v := rfl
@[simp] theorem State.setPc_i (t : Word) : (s.setPc t).i = s.i := rfl
@[simp] theorem State.setPc_pc (t : Word) : (s.setPc t).pc = t := rfl
@[simp] theorem State.setPc_sp (t : Word) : (s.setPc t).sp = s.sp := rfl
@[simp] theorem State.setPc_stack (t : Word) : (s.setPc t).stack = s.stack := rfl
@[simp] theorem State.setPc_dt (t : Word) : (s.setPc t).dt = s.dt := rfl
@[simp] theorem State.setPc_st (t : Word) : (s.setPc t).st = s.st := rfl
@[simp] theorem State.setPc_keys (t : Word) : (s.setPc t).keys = s.keys := rfl
@[simp] theorem State.setPc_display (t : Word) : (s.setPc t).display = s.display := rfl
@[simp] theorem State.setPc_phase (t : Word) : (s.setPc t).phase = s.phase := rfl
@[simp] theorem State.setPc_fault (t : Word) : (s.setPc t).fault = s.fault := rfl
@[simp] theorem State.setPc_loaded (t : Word) : (s.setPc t).loaded = s.loaded := rfl
@[simp] theorem State.setPc_draws (t : Word) : (s.setPc t).draws = s.draws := rfl
@[simp] theorem State.setPc_reg (t : Word) (j : RegIdx) : (s.setPc t).reg j = s.reg j := rfl
@[simp] theorem State.setPc_key (t : Word) (j : Fin 16) : (s.setPc t).key j = s.key j := rfl

/-! ### setI -/

@[simp] theorem State.setI_mem (w : Word) : (s.setI w).mem = s.mem := rfl
@[simp] theorem State.setI_v (w : Word) : (s.setI w).v = s.v := rfl
@[simp] theorem State.setI_i (w : Word) : (s.setI w).i = w := rfl
@[simp] theorem State.setI_pc (w : Word) : (s.setI w).pc = s.pc := rfl
@[simp] theorem State.setI_sp (w : Word) : (s.setI w).sp = s.sp := rfl
@[simp] theorem State.setI_stack (w : Word) : (s.setI w).stack = s.stack := rfl
@[simp] theorem State.setI_dt (w : Word) : (s.setI w).dt = s.dt := rfl
@[simp] theorem State.setI_st (w : Word) : (s.setI w).st = s.st := rfl
@[simp] theorem State.setI_keys (w : Word) : (s.setI w).keys = s.keys := rfl
@[simp] theorem State.setI_display (w : Word) : (s.setI w).display = s.display := rfl
@[simp] theorem State.setI_phase (w : Word) : (s.setI w).phase = s.phase := rfl
@[simp] theorem State.setI_fault (w : Word) : (s.setI w).fault = s.fault := rfl
@[simp] theorem State.setI_loaded (w : Word) : (s.setI w).loaded = s.loaded := rfl
@[simp] theorem State.setI_draws (w : Word) : (s.setI w).draws = s.draws := rfl
@[simp] theorem State.setI_reg (w : Word) (j : RegIdx) : (s.setI w).reg j = s.reg j := rfl
@[simp] theorem State.setI_key (w : Word) (j : Fin 16) : (s.setI w).key j = s.key j := rfl

/-! ### setDt -/

@[simp] theorem State.setDt_mem (b : Byte) : (s.setDt b).mem = s.mem := rfl
@[simp] theorem State.setDt_v (b : Byte) : (s.setDt b).v = s.v := rfl
@[simp] theorem State.setDt_i (b : Byte) : (s.setDt b).i = s.i := rfl
@[simp] theorem State.setDt_pc (b : Byte) : (s.setDt b).pc = s.pc := rfl
@[simp] theorem State.setDt_sp (b : Byte) : (s.setDt b).sp = s.sp := rfl
@[simp] theorem State.setDt_stack (b : Byte) : (s.setDt b).stack = s.stack := rfl
@[simp] theorem State.setDt_dt (b : Byte) : (s.setDt b).dt = b := rfl
@[simp] theorem State.setDt_st (b : Byte) : (s.setDt b).st = s.st := rfl
@[simp] theorem State.setDt_keys (b : Byte) : (s.setDt b).keys = s.keys := rfl
@[simp] theorem State.setDt_display (b : Byte) : (s.setDt b).display = s.display := rfl
@[simp] theorem State.setDt_phase (b : Byte) : (s.setDt b).phase = s.phase := rfl
@[simp] theorem State.setDt_fault (b : Byte) : (s.setDt b).fault = s.fault := rfl
@[simp] theorem State.setDt_loaded (b : Byte) : (s.setDt b).loaded = s.loaded := rfl
@[simp] theorem State.setDt_draws (b : Byte) : (s.setDt b).draws = s.draws := rfl
@[simp] theorem State.setDt_reg (b : Byte) (j : RegIdx) : (s.setDt b).reg j = s.reg j := rfl
@[simp] theorem State.setDt_key (b : Byte) (j : Fin 16) : (s.setDt b).key j = s.key j := rfl

/-! ### setSt -/

@[simp] theorem State.setSt_mem (b : Byte) : (s.setSt b).mem = s.mem := rfl
@[simp] theorem State.setSt_v (b : Byte) : (s.setSt b).v = s.v := rfl
@[simp] theorem State.setSt_i (b : Byte) : (s.setSt b).i = s.i := rfl
@[simp] theorem State.setSt_pc (b : Byte) : (s.setSt b).pc = s.pc := rfl
@[simp] theorem State.setSt_sp (b : Byte) : (s.setSt b).sp = s.sp := rfl
@[simp] theorem State.setSt_stack (b : Byte) : (s.setSt b).stack = s.stack := rfl
@[simp] theorem State.setSt_dt (b : Byte) : (s.setSt b).dt = s.dt := rfl
@[simp] theorem State.setSt_st (b : Byte) : (s.setSt b).st = b := rfl
@[simp] theorem State.setSt_keys (b : Byte) : (s.setSt b).keys = s.keys := rfl
@[simp] theorem State.setSt_display (b : Byte) : (s.setSt b).display = s.display := rfl
@[simp] theorem State.setSt_phase (b : Byte) : (s.setSt b).phase = s.phase := rfl
@[simp] theorem State.setSt_fault (b : Byte) : (s.setSt b).fault = s.fault := rfl
@[simp] theorem State.setSt_loaded (b : Byte) : (s.setSt b).loaded = s.loaded := rfl
@[simp] theorem State.setSt_draws (b : Byte) : (s.setSt b).draws = s.draws := rfl
@[simp] theorem State.setSt_reg (b : Byte) (j : RegIdx) : (s.setSt b).reg j = s.reg j := rfl
@[simp] theorem State.setSt_key (b : Byte) (j : Fin 16) : (s.setSt b).key j = s.key j := rfl

/-! ### setMem -/

@[simp] theorem State.setMem_mem (m : Memory) : (s.setMem m).mem = m := rfl
@[simp] theorem State.setMem_v (m : Memory) : (s.setMem m).v = s.v := rfl
@[simp] theorem State.setMem_i (m : Memory) : (s.setMem m).i = s.i := rfl
@[simp] theorem State.setMem_pc (m : Memory) : (s.setMem m).pc = s.pc := rfl
@[simp] theorem State.setMem_sp (m : Memory) : (s.setMem m).sp = s.sp := rfl
@[simp] theorem State.setMem_stack (m : Memory) : (s.setMem m).stack = s.stack := rfl
@[simp] theorem State.setMem_dt (m : Memory) : (s.setMem m).dt = s.dt := rfl
@[simp] theorem State.setMem_st (m : Memory) : (s.setMem m).st = s.st := rfl
@[simp] theorem State.setMem_keys (m : Memory) : (s.setMem m).keys = s.keys := rfl
@[simp] theorem State.setMem_display (m : Memory) : (s.setMem m).display = s.display := rfl
@[simp] theorem State.setMem_phase (m : Memory) : (s.setMem m).phase = s.phase := rfl
@[simp] theorem State.setMem_fault (m : Memory) : (s.setMem m).fault = s.fault := rfl
@[simp] theorem State.setMem_loaded (m : Memory) : (s.setMem m).loaded = s.loaded := rfl
@[simp] theorem State.setMem_draws (m : Memory) : (s.setMem m).draws = s.draws := rfl
@[simp] theorem State.setMem_reg (m : Memory) (j : RegIdx) : (s.setMem m).reg j = s.reg j := rfl
@[simp] theorem State.setMem_key (m : Memory) (j : Fin 16) : (s.setMem m).key j = s.key j := rfl

/-! ### setDisplay -/

@[simp] theorem State.setDisplay_mem (d : Display) : (s.setDisplay d).mem = s.mem := rfl
@[simp] theorem State.setDisplay_v (d : Display) : (s.setDisplay d).v = s.v := rfl
@[simp] theorem State.setDisplay_i (d : Display) : (s.setDisplay d).i = s.i := rfl
@[simp] theorem State.setDisplay_pc (d : Display) : (s.setDisplay d).pc = s.pc := rfl
@[simp] theorem State.setDisplay_sp (d : Display) : (s.setDisplay d).sp = s.sp := rfl
@[simp] theorem State.setDisplay_stack (d : Display) : (s.setDisplay d).stack = s.stack := rfl
@[simp] theorem State.setDisplay_dt (d : Display) : (s.setDisplay d).dt = s.dt := rfl
@[simp] theorem State.setDisplay_st (d : Display) : (s.setDisplay d).st = s.st := rfl
@[simp] theorem State.setDisplay_keys (d : Display) : (s.setDisplay d).keys = s.keys := rfl
@[simp] theorem State.setDisplay_display (d : Display) : (s.setDisplay d).display = d := rfl
@[simp] theorem State.setDisplay_phase (d : Display) : (s.setDisplay d).phase = s.phase := rfl
@[simp] theorem State.setDisplay_fault (d : Display) : (s.setDisplay d).fault = s.fault := rfl
@[simp] theorem State.setDisplay_loaded (d : Display) : (s.setDisplay d).loaded = s.loaded := rfl
@[simp] theorem State.setDisplay_draws (d : Display) : (s.setDisplay d).draws = s.draws := rfl
@[simp] theorem State.setDisplay_reg (d : Display) (j : RegIdx) : (s.setDisplay d).reg j = s.reg j := rfl
@[simp] theorem State.setDisplay_key (d : Display) (j : Fin 16) : (s.setDisplay d).key j = s.key j := rfl

/-! ### setKeys -/

@[simp] theorem State.setKeys_mem (k : Keys) : (s.setKeys k).mem = s.mem := rfl
@[simp] theorem State.setKeys_v (k : Keys) : (s.setKeys k).v = s.v := rfl
@[simp] theorem State.setKeys_i (k : Keys) : (s.setKeys k).i = s.i := rfl
@[simp] theorem State.setKeys_pc (k : Keys) : (s.setKeys k).pc = s.pc := rfl
@[simp] theorem State.setKeys_sp (k : Keys) : (s.setKeys k).sp = s.sp := rfl
@[simp] theorem State.setKeys_stack (k : Keys) : (s.setKeys k).stack = s.stack := rfl
@[simp] theorem State.setKeys_dt (k : Keys) : (s.setKeys k).dt = s.dt := rfl
@[simp] theorem State.setKeys_st (k : Keys) : (s.setKeys k).st = s.st := rfl
@[simp] theorem State.setKeys_keys (k : Keys) : (s.setKeys k).keys = k := rfl
@[simp] theorem State.setKeys_display (k : Keys) : (s.setKeys k).display = s.display := rfl
@[simp] theorem State.setKeys_phase (k : Keys) : (s.setKeys k).phase = s.phase := rfl
@[simp] theorem State.setKeys_fault (k : Keys) : (s.setKeys k).fault = s.fault := rfl
@[simp] theorem State.setKeys_loaded (k : Keys) : (s.setKeys k).loaded = s.loaded := rfl
@[simp] theorem State.setKeys_draws (k : Keys) : (s.setKeys k).draws = s.draws := rfl
@[simp] theorem State.setKeys_reg (k : Keys) (j : RegIdx) : (s.setKeys k).reg j = s.reg j := rfl

/-! ### drawn -/

@[simp] theorem State.drawn_mem : (s.drawn).mem = s.mem := rfl
@[simp] theorem State.drawn_v : (s.drawn).v = s.v := rfl
@[simp] theorem State.drawn_i : (s.drawn).i = s.i := rfl
@[simp] theorem State.drawn_pc : (s.drawn).pc = s.pc := rfl
@[simp] theorem State.drawn_sp : (s.drawn).sp = s.sp := rfl
@[simp] theorem State.drawn_stack : (s.drawn).stack = s.stack := rfl
@[simp] theorem State.drawn_dt : (s.drawn).dt = s.dt := rfl
@[simp] theorem State.drawn_st : (s.drawn).st = s.st := rfl
@[simp] theorem State.drawn_keys : (s.drawn).keys = s.keys := rfl
@[simp] theorem State.drawn_display : (s.drawn).display = s.display := rfl
@[simp] theorem State.drawn_phase : (s.drawn).phase = s.phase := rfl
@[simp] theorem State.drawn_fault : (s.drawn).fault = s.fault := rfl
@[simp] theorem State.drawn_loaded : (s.drawn).loaded = s.loaded := rfl
@[simp] theorem State.drawn_draws : (s.drawn).draws = s.draws + 1 := rfl
@[simp] theorem State.drawn_reg (j : RegIdx) : (s.drawn).reg j = s.reg j := rfl
@[simp] theorem State.drawn_key (j : Fin 16) : (s.drawn).key j = s.key j := rfl

/-! ### push -/

@[simp] theorem State.push_mem (w : Word) (h : s.sp.toNat < 16) : (s.push w h).mem = s.mem := rfl
@[simp] theorem State.push_v (w : Word) (h : s.sp.toNat < 16) : (s.push w h).v = s.v := rfl
@[simp] theorem State.push_i (w : Word) (h : s.sp.toNat < 16) : (s.push w h).i = s.i := rfl
@[simp] theorem State.push_pc (w : Word) (h : s.sp.toNat < 16) : (s.push w h).pc = s.pc := rfl
@[simp] theorem State.push_sp (w : Word) (h : s.sp.toNat < 16) : (s.push w h).sp = s.sp + 1 := rfl
@[simp] theorem State.push_stack (w : Word) (h : s.sp.toNat < 16) : (s.push w h).stack = s.stack.set s.sp.toNat w := rfl
@[simp] theorem State.push_dt (w : Word) (h : s.sp.toNat < 16) : (s.push w h).dt = s.dt := rfl
@[simp] theorem State.push_st (w : Word) (h : s.sp.toNat < 16) : (s.push w h).st = s.st := rfl
@[simp] theorem State.push_keys (w : Word) (h : s.sp.toNat < 16) : (s.push w h).keys = s.keys := rfl
@[simp] theorem State.push_display (w : Word) (h : s.sp.toNat < 16) : (s.push w h).display = s.display := rfl
@[simp] theorem State.push_phase (w : Word) (h : s.sp.toNat < 16) : (s.push w h).phase = s.phase := rfl
@[simp] theorem State.push_fault (w : Word) (h : s.sp.toNat < 16) : (s.push w h).fault = s.fault := rfl
@[simp] theorem State.push_loaded (w : Word) (h : s.sp.toNat < 16) : (s.push w h).loaded = s.loaded := rfl
@[simp] theorem State.push_draws (w : Word) (h : s.sp.toNat < 16) : (s.push w h).draws = s.draws := rfl
@[simp] theorem State.push_reg (w : Word) (h : s.sp.toNat < 16) (j : RegIdx) : (s.push w h).reg j = s.reg j := rfl
@[simp] theorem State.push_key (w : Word) (h : s.sp.toNat < 16) (j : Fin 16) : (s.push w h).key j = s.key j := rfl

/-! ### pop -/

@[simp] theorem State.pop_mem (h : s.sp.toNat - 1 < 16) : (s.pop h).mem = s.mem := rfl
@[simp] theorem State.pop_v (h : s.sp.toNat - 1 < 16) : (s.pop h).v = s.v := rfl
@[simp] theorem State.pop_i (h : s.sp.toNat - 1 < 16) : (s.pop h).i = s.i := rfl
@[simp] theorem State.pop_pc (h : s.sp.toNat - 1 < 16) : (s.pop h).pc = s.stack[s.sp.toNat - 1] := rfl
@[simp] theorem State.pop_sp (h : s.sp.toNat - 1 < 16) : (s.pop h).sp = s.sp - 1 := rfl
@[simp] theorem State.pop_stack (h : s.sp.toNat - 1 < 16) : (s.pop h).stack = s.stack := rfl
@[simp] theorem State.pop_dt (h : s.sp.toNat - 1 < 16) : (s.pop h).dt = s.dt := rfl
@[simp] theorem State.pop_st (h : s.sp.toNat - 1 < 16) : (s.pop h).st = s.st := rfl
@[simp] theorem State.pop_keys (h : s.sp.toNat - 1 < 16) : (s.pop h).keys = s.keys := rfl
@[simp] theorem State.pop_display (h : s.sp.toNat - 1 < 16) : (s.pop h).display = s.display := rfl
@[simp] theorem State.pop_phase (h : s.sp.toNat - 1 < 16) : (s.pop h).phase = s.phase := rfl
@[simp] theorem State.pop_fault (h : s.sp.toNat - 1 < 16) : (s.pop h).fault = s.fault := rfl
@[simp] theorem State.pop_loaded (h : s.sp.toNat - 1 < 16) : (s.pop h).loaded = s.loaded := rfl
@[simp] theorem State.pop_draws (h : s.sp.toNat - 1 < 16) : (s.pop h).draws = s.draws := rfl
@[simp] theorem State.pop_reg (h : s.sp.toNat - 1 < 16) (j : RegIdx) : (s.pop h).reg j = s.reg j := rfl
@[simp] theorem State.pop_key (h : s.sp.toNat - 1 < 16) (j : Fin 16) : (s.pop h).key j = s.key j := rfl

/-! ### advance -/

@[simp] theorem State.advance_mem : (s.advance).mem = s.mem := rfl
@[simp] theorem State.advance_v : (s.advance).v = s.v := rfl
@[simp] theorem State.advance_i : (s.advance).i = s.i := rfl
@[simp] theorem State.advance_pc : (s.advance).pc = s.pc + 2 := rfl
@[simp] theorem State.advance_sp : (s.advance).sp = s.sp := rfl
@[simp] theorem State.advance_stack : (s.advance).stack = s.stack := rfl
@[simp] theorem State.advance_dt : (s.advance).dt = s.dt := rfl
@[simp] theorem State.advance_st : (s.advance).st = s.st := rfl
@[simp] theorem State.advance_keys : (s.advance).keys = s.keys := rfl
@[simp] theorem State.advance_display : (s.advance).display = s.display := rfl
@[simp] theorem State.advance_phase : (s.advance).phase = s.phase := rfl
@[simp] theorem State.advance_fault : (s.advance).fault = s.fault := rfl
@[simp] theorem State.advance_loaded : (s.advance).loaded = s.loaded := rfl
@[simp] theorem State.advance_draws : (s.advance).draws = s.draws := rfl
@[simp] theorem State.advance_reg (j : RegIdx) : (s.advance).reg j = s.reg j := rfl
@[simp] theorem State.advance_key (j : Fin 16) : (s.advance).key j = s.key j := rfl

/-! ### completeCycle -/

@[simp] theorem State.completeCycle_mem : (s.completeCycle).mem = s.mem := rfl
@[simp] theorem State.completeCycle_v : (s.completeCycle).v = s.v := rfl
@[simp] theorem State.completeCycle_i : (s.completeCycle).i = s.i := rfl
@[simp] theorem State.completeCycle_pc : (s.completeCycle).pc = s.pc := rfl
@[simp] theorem State.completeCycle_sp : (s.completeCycle).sp = s.sp := rfl
@[simp] theorem State.completeCycle_stack : (s.completeCycle).stack = s.stack := rfl
@[simp] theorem State.completeCycle_dt : (s.completeCycle).dt = tick s.dt := rfl
@[simp] theorem State.completeCycle_st : (s.completeCycle).st = tick s.st := rfl
@[simp] theorem State.completeCycle_keys : (s.completeCycle).keys = s.keys := rfl
@[simp] theorem State.completeCycle_display : (s.completeCycle).display = s.display := rfl
@[simp] theorem State.completeCycle_phase : (s.completeCycle).phase = if s.phase = .reset then .running else s.phase := rfl
@[simp] theorem State.completeCycle_fault : (s.completeCycle).fault = s.fault := rfl
@[simp] theorem State.completeCycle_loaded : (s.completeCycle).loaded = s.loaded := rfl
@[simp] theorem State.completeCycle_draws : (s.completeCycle).draws = s.draws := rfl
@[simp] theorem State.completeCycle_reg (j : RegIdx) : (s.completeCycle).reg j = s.reg j := rfl
@[simp] theorem State.completeCycle_key (j : Fin 16) : (s.completeCycle).key j = s.key j := rfl

/-! ### takeFault -/

@[simp] theorem State.takeFault_mem (k : FaultKind) (o : Option Word) (a : Word) (d : Option Nat) : (s.takeFault k o a d).mem = s.mem := rfl
@[simp] theorem State.takeFault_v (k : FaultKind) (o : Option Word) (a : Word) (d : Option Nat) : (s.takeFault k o a d).v = s.v := rfl
@[simp] theorem State.takeFault_i (k : FaultKind) (o : Option Word) (a : Word) (d : Option Nat) : (s.takeFault k o a d).i = s.i := rfl
@[simp] theorem State.takeFault_pc (k : FaultKind) (o : Option Word) (a : Word) (d : Option Nat) : (s.takeFault k o a d).pc = a := rfl
@[simp] theorem State.takeFault_sp (k : FaultKind) (o : Option Word) (a : Word) (d : Option Nat) : (s.takeFault k o a d).sp = s.sp := rfl
@[simp] theorem State.takeFault_stack (k : FaultKind) (o : Option Word) (a : Word) (d : Option Nat) : (s.takeFault k o a d).stack = s.stack := rfl
@[simp] theorem State.takeFault_dt (k : FaultKind) (o : Option Word) (a : Word) (d : Option Nat) : (s.takeFault k o a d).dt = s.dt := rfl
@[simp] theorem State.takeFault_st (k : FaultKind) (o : Option Word) (a : Word) (d : Option Nat) : (s.takeFault k o a d).st = s.st := rfl
@[simp] theorem State.takeFault_keys (k : FaultKind) (o : Option Word) (a : Word) (d : Option Nat) : (s.takeFault k o a d).keys = s.keys := rfl
@[simp] theorem State.takeFault_display (k : FaultKind) (o : Option Word) (a : Word) (d : Option Nat) : (s.takeFault k o a d).display = s.display := rfl
@[simp] theorem State.takeFault_phase (k : FaultKind) (o : Option Word) (a : Word) (d : Option Nat) : (s.takeFault k o a d).phase = .halted := rfl
@[simp] theorem State.takeFault_fault (k : FaultKind) (o : Option Word) (a : Word) (d : Option Nat) : (s.takeFault k o a d).fault = some ⟨k, o, a, d⟩ := rfl
@[simp] theorem State.takeFault_loaded (k : FaultKind) (o : Option Word) (a : Word) (d : Option Nat) : (s.takeFault k o a d).loaded = s.loaded := rfl
@[simp] theorem State.takeFault_draws (k : FaultKind) (o : Option Word) (a : Word) (d : Option Nat) : (s.takeFault k o a d).draws = s.draws := rfl
@[simp] theorem State.takeFault_reg (k : FaultKind) (o : Option Word) (a : Word) (d : Option Nat) (j : RegIdx) : (s.takeFault k o a d).reg j = s.reg j := rfl
@[simp] theorem State.takeFault_key (k : FaultKind) (o : Option Word) (a : Word) (d : Option Nat) (j : Fin 16) : (s.takeFault k o a d).key j = s.key j := rfl

/-! ### raise -/

@[simp] theorem State.raise_mem (i : Instr) (k : FaultKind) (d : Option Nat) : (s.raise i k d).mem = s.mem := rfl
@[simp] theorem State.raise_v (i : Instr) (k : FaultKind) (d : Option Nat) : (s.raise i k d).v = s.v := rfl
@[simp] theorem State.raise_i (i : Instr) (k : FaultKind) (d : Option Nat) : (s.raise i k d).i = s.i := rfl
@[simp] theorem State.raise_pc (i : Instr) (k : FaultKind) (d : Option Nat) : (s.raise i k d).pc = s.pc - 2 := rfl
@[simp] theorem State.raise_sp (i : Instr) (k : FaultKind) (d : Option Nat) : (s.raise i k d).sp = s.sp := rfl
@[simp] theorem State.raise_stack (i : Instr) (k : FaultKind) (d : Option Nat) : (s.raise i k d).stack = s.stack := rfl
@[simp] theorem State.raise_dt (i : Instr) (k : FaultKind) (d : Option Nat) : (s.raise i k d).dt = s.dt := rfl
@[simp] theorem State.raise_st (i : Instr) (k : FaultKind) (d : Option Nat) : (s.raise i k d).st = s.st := rfl
@[simp] theorem State.raise_keys (i : Instr) (k : FaultKind) (d : Option Nat) : (s.raise i k d).keys = s.keys := rfl
@[simp] theorem State.raise_display (i : Instr) (k : FaultKind) (d : Option Nat) : (s.raise i k d).display = s.display := rfl
@[simp] theorem State.raise_phase (i : Instr) (k : FaultKind) (d : Option Nat) : (s.raise i k d).phase = .halted := rfl
@[simp] theorem State.raise_fault (i : Instr) (k : FaultKind) (d : Option Nat) : (s.raise i k d).fault = some ⟨k, some (encode i), s.pc - 2, d⟩ := rfl
@[simp] theorem State.raise_loaded (i : Instr) (k : FaultKind) (d : Option Nat) : (s.raise i k d).loaded = s.loaded := rfl
@[simp] theorem State.raise_draws (i : Instr) (k : FaultKind) (d : Option Nat) : (s.raise i k d).draws = s.draws := rfl
@[simp] theorem State.raise_reg (i : Instr) (k : FaultKind) (d : Option Nat) (j : RegIdx) : (s.raise i k d).reg j = s.reg j := rfl
@[simp] theorem State.raise_key (i : Instr) (k : FaultKind) (d : Option Nat) (j : Fin 16) : (s.raise i k d).key j = s.key j := rfl

/-! ### setVF and skipIf -/

/-- VF is V[15] (10_state.md R22). -/
@[simp] theorem State.setVF_eq (b : Byte) : s.setVF b = s.setReg 15 b := rfl

/-- A skip is a write of PC (40_control_flow.md R120). -/
theorem State.skipIf_eq (c : Bool) : s.skipIf c = s.setPc (if c then s.pc + 2 else s.pc) := by
  cases c <;> rfl

@[simp] theorem State.skipIf_pc (c : Bool) : (s.skipIf c).pc = if c then s.pc + 2 else s.pc := by
  rw [State.skipIf_eq]; rfl

@[simp] theorem State.skipIf_mem (c : Bool) : (s.skipIf c).mem = s.mem := by rw [State.skipIf_eq]; rfl
@[simp] theorem State.skipIf_v (c : Bool) : (s.skipIf c).v = s.v := by rw [State.skipIf_eq]; rfl
@[simp] theorem State.skipIf_i (c : Bool) : (s.skipIf c).i = s.i := by rw [State.skipIf_eq]; rfl
@[simp] theorem State.skipIf_sp (c : Bool) : (s.skipIf c).sp = s.sp := by rw [State.skipIf_eq]; rfl
@[simp] theorem State.skipIf_stack (c : Bool) : (s.skipIf c).stack = s.stack := by rw [State.skipIf_eq]; rfl
@[simp] theorem State.skipIf_dt (c : Bool) : (s.skipIf c).dt = s.dt := by rw [State.skipIf_eq]; rfl
@[simp] theorem State.skipIf_st (c : Bool) : (s.skipIf c).st = s.st := by rw [State.skipIf_eq]; rfl
@[simp] theorem State.skipIf_keys (c : Bool) : (s.skipIf c).keys = s.keys := by rw [State.skipIf_eq]; rfl
@[simp] theorem State.skipIf_display (c : Bool) : (s.skipIf c).display = s.display := by rw [State.skipIf_eq]; rfl
@[simp] theorem State.skipIf_phase (c : Bool) : (s.skipIf c).phase = s.phase := by rw [State.skipIf_eq]; rfl
@[simp] theorem State.skipIf_fault (c : Bool) : (s.skipIf c).fault = s.fault := by rw [State.skipIf_eq]; rfl
@[simp] theorem State.skipIf_loaded (c : Bool) : (s.skipIf c).loaded = s.loaded := by rw [State.skipIf_eq]; rfl
@[simp] theorem State.skipIf_draws (c : Bool) : (s.skipIf c).draws = s.draws := by rw [State.skipIf_eq]; rfl
@[simp] theorem State.skipIf_reg (c : Bool) (j : RegIdx) : (s.skipIf c).reg j = s.reg j := by rw [State.skipIf_eq]; rfl
@[simp] theorem State.skipIf_key (c : Bool) (j : Fin 16) : (s.skipIf c).key j = s.key j := by rw [State.skipIf_eq]; rfl

/-! ### Registers -/

/-- A write of V[r] is seen in V[r] and nowhere else (10_state.md R21). -/
@[simp] theorem State.reg_setReg (r j : RegIdx) (b : Byte) :
    (s.setReg r b).reg j = if r = j then b else s.reg j := by
  simp only [State.reg, State.setReg, Fin.getElem_fin, Vector.getElem_set, Fin.ext_iff]

/-- Two writes of one register leave the second. -/
theorem State.setReg_setReg (r : RegIdx) (b c : Byte) : (s.setReg r b).setReg r c = s.setReg r c := by
  simp only [State.setReg, Vector.set_set]

/-- Two states are equal when all their fields are. -/
theorem State.ext_fields {s t : State} (hmem : t.mem = s.mem) (hv : t.v = s.v) (hi : t.i = s.i) (hpc : t.pc = s.pc)
    (hsp : t.sp = s.sp) (hstack : t.stack = s.stack) (hdt : t.dt = s.dt) (hst : t.st = s.st) (hkeys : t.keys = s.keys)
    (hdisplay : t.display = s.display) (hphase : t.phase = s.phase) (hfault : t.fault = s.fault)
    (hloaded : t.loaded = s.loaded) (hdraws : t.draws = s.draws) : t = s := by
  cases s; cases t; simp_all

end Sys2Proof.Machine
end

