-- ==== Sys2Proof/Laws/Memory.lean ====
section
/-! SUPPORT. What the memory operations do: a read after a write (20_memory.md R69), and that every one of them keeps the
canonical form; and that two memories in that form that read alike are equal. -/

set_option Elab.async false

namespace Sys2Proof.Machine

namespace Memory

/-- The canonical form at a lower bound holds at every smaller one. -/
theorem wfFrom_mono {lo lo' : Nat} (h : lo' ≤ lo) : ∀ {m : Memory}, wfFrom lo m = true → wfFrom lo' m = true
  | [], _ => rfl
  | (a, b) :: m, hm => by
    simp only [wfFrom, Bool.and_eq_true, decide_eq_true_eq] at hm ⊢
    exact ⟨⟨⟨h.trans hm.1.1.1, hm.1.1.2⟩, hm.1.2⟩, hm.2⟩

/-- Below the bound of a canonical memory nothing is listed. -/
theorem read_below : ∀ {m : Memory} {lo a : Nat}, wfFrom lo m = true → a < lo → m.read a = unlisted a
  | [], _, _, _, _ => rfl
  | (a', b) :: m, lo, a, hm, h => by
    simp only [wfFrom, Bool.and_eq_true, decide_eq_true_eq] at hm
    have hlt : a < a' := by omega
    simp only [read, Nat.ne_of_lt hlt, if_false]
    exact read_below hm.2 (by omega)

/-- A write changes no other address. -/
@[simp] theorem read_write_other {a a' : Nat} (h : a' ≠ a) (b : Byte) :
    ∀ m : Memory, (write m a b).read a' = m.read a'
  | [] => by
    unfold write
    split <;> simp [read, h]
  | (c, d) :: m => by
    unfold write
    split
    · split <;> simp [read, h]
    · split
      · rename_i hac; subst hac
        split <;> simp [read, h]
      · simp only [read, read_write_other h b m]

theorem read_write_same_from {lo a : Nat} (b : Byte) :
    ∀ {m : Memory}, wfFrom lo m = true → (write m a b).read a = b
  | [], _ => by
    unfold write
    split
    · simp_all [read]
    · simp [read]
  | (c, d) :: m, hm => by
    simp only [wfFrom, Bool.and_eq_true, decide_eq_true_eq] at hm
    unfold write
    split
    · rename_i hlt
      split
      · rename_i hb
        rw [hb]
        simp only [read, Nat.ne_of_lt hlt, if_false]
        exact read_below hm.2 (by omega)
      · simp [read]
    · split
      · rename_i hac; subst hac
        split
        · rename_i hb
          rw [hb]; exact read_below hm.2 (by omega)
        · simp [read]
      · rename_i hne
        simp only [read, hne, if_false]
        exact read_write_same_from b hm.2

/-- A read after a write to the same address gives the byte written. -/
theorem read_write_same {m : Memory} (h : m.wf = true) (a : Nat) (b : Byte) : (write m a b).read a = b :=
  read_write_same_from b h

/-- A read after a write. -/
theorem read_write {m : Memory} (h : m.wf = true) (a a' : Nat) (b : Byte) :
    (write m a b).read a' = if a' = a then b else m.read a' := by
  split
  · rename_i he; subst he; exact read_write_same h a' b
  · rename_i hne; exact read_write_other hne b m

theorem wfFrom_write {a : Nat} (ha : a < Config.memSize) (b : Byte) :
    ∀ {m : Memory} {lo : Nat}, lo ≤ a → wfFrom lo m = true → wfFrom lo (write m a b) = true
  | [], lo, hlo, _ => by
    unfold write
    split
    · rfl
    · simp_all [wfFrom]
  | (c, d) :: m, lo, hlo, hm => by
    simp only [wfFrom, Bool.and_eq_true, decide_eq_true_eq] at hm
    obtain ⟨⟨⟨h1, h2⟩, h3⟩, h4⟩ := hm
    unfold write
    split
    · rename_i hlt
      split
      · simp only [wfFrom, Bool.and_eq_true, decide_eq_true_eq]
        exact ⟨⟨⟨h1, h2⟩, h3⟩, h4⟩
      · rename_i hb
        simp only [wfFrom, Bool.and_eq_true, decide_eq_true_eq]
        exact ⟨⟨⟨hlo, ha⟩, hb⟩, ⟨⟨hlt, h2⟩, h3⟩, h4⟩
    · split
      · rename_i hac; subst hac
        split
        · exact wfFrom_mono (by omega) h4
        · rename_i hb
          simp only [wfFrom, Bool.and_eq_true, decide_eq_true_eq]
          exact ⟨⟨⟨hlo, ha⟩, hb⟩, h4⟩
      · simp only [wfFrom, Bool.and_eq_true, decide_eq_true_eq]
        exact ⟨⟨⟨h1, h2⟩, h3⟩, wfFrom_write ha b (by omega) h4⟩

/-- A write inside the address space keeps the canonical form. -/
theorem wf_write {m : Memory} (h : m.wf = true) {a : Nat} (ha : a < Config.memSize) (b : Byte) :
    (write m a b).wf = true :=
  wfFrom_write ha b (Nat.zero_le a) h

/-- Writing consecutive bytes inside the address space keeps the canonical form. -/
theorem wf_writeBytes : ∀ {bs : List Byte} {m : Memory} {a : Nat}, m.wf = true → a + bs.length ≤ Config.memSize →
    (writeBytes m a bs).wf = true
  | [], _, _, h, _ => h
  | b :: bs, m, a, h, ha => by
    simp only [List.length_cons] at ha
    rw [writeBytes]
    exact wf_writeBytes (wf_write h (by omega) b) (by omega)

/-- Consecutive writes change no address outside their window. -/
theorem read_writeBytes_other : ∀ {bs : List Byte} {m : Memory} {a a' : Nat}, a' < a ∨ a + bs.length ≤ a' →
    (writeBytes m a bs).read a' = m.read a'
  | [], _, _, _, _ => rfl
  | b :: bs, m, a, a', h => by
    simp only [List.length_cons] at h
    rw [writeBytes, read_writeBytes_other (by omega), read_write_other (by omega)]

/-- Consecutive writes leave the k-th byte at the k-th address. -/
theorem read_writeBytes : ∀ {bs : List Byte} {m : Memory} {a : Nat}, m.wf = true → a + bs.length ≤ Config.memSize →
    ∀ (k : Nat) (hk : k < bs.length), (writeBytes m a bs).read (a + k) = bs[k]
  | [], _, _, _, _, k, hk => absurd hk (Nat.not_lt_zero k)
  | b :: bs, m, a, h, ha, k, hk => by
    simp only [List.length_cons] at ha hk
    have hw : (write m a b).wf = true := wf_write h (by omega) b
    cases k with
    | zero =>
      rw [writeBytes, read_writeBytes_other (by omega), Nat.add_zero, read_write_same h]
      rfl
    | succ k =>
      have := read_writeBytes hw (by omega) k (by omega) (bs := bs) (a := a + 1)
      rw [writeBytes, show a + (k + 1) = a + 1 + k by omega, this]
      rfl

/-- Two memories in canonical form that read alike are equal. -/
theorem eq_of_read_from : ∀ {m m' : Memory} {lo : Nat}, wfFrom lo m = true → wfFrom lo m' = true →
    (∀ a, lo ≤ a → m.read a = m'.read a) → m = m'
  | [], [], _, _, _, _ => rfl
  | [], (a, b) :: m', lo, _, h', hr => by
    simp only [wfFrom, Bool.and_eq_true, decide_eq_true_eq] at h'
    have := hr a h'.1.1.1
    simp only [read, if_true] at this
    exact absurd this.symm h'.1.2
  | (a, b) :: m, [], lo, h, _, hr => by
    simp only [wfFrom, Bool.and_eq_true, decide_eq_true_eq] at h
    have := hr a h.1.1.1
    simp only [read, if_true] at this
    exact absurd this h.1.2
  | (a, b) :: m, (a', b') :: m', lo, h, h', hr => by
    simp only [wfFrom, Bool.and_eq_true, decide_eq_true_eq] at h h'
    have ha : a = a' := by
      rcases Nat.lt_trichotomy a a' with hlt | he | hlt
      · have := hr a h.1.1.1
        simp only [read, if_true, Nat.ne_of_lt hlt, if_false] at this
        rw [read_below h'.2 (by omega)] at this
        exact absurd this h.1.2
      · exact he
      · have := hr a' h'.1.1.1
        simp only [read, if_true, Nat.ne_of_lt hlt, if_false] at this
        rw [read_below h.2 (by omega)] at this
        exact absurd this.symm h'.1.2
    subst ha
    have hb : b = b' := by simpa [read] using hr a h.1.1.1
    subst hb
    congr 1
    refine eq_of_read_from h.2 h'.2 fun c hc => ?_
    have := hr c (by omega)
    have hne : c ≠ a := by omega
    simpa only [read, hne, if_false] using this

/-- Equal memories are equal data. -/
theorem eq_of_read {m m' : Memory} (h : m.wf = true) (h' : m'.wf = true) (hr : ∀ a, m.read a = m'.read a) : m = m' :=
  eq_of_read_from h h' fun a _ => hr a

/-- Reset memory has the canonical form. -/
theorem wf_reset : State.reset.mem.wf = true := rfl

end Memory

/-! ### Block transfers (42_index_memory.md R174, R175) -/

/-- Storing registers inside the address space keeps the canonical form. -/
theorem wf_storeFirst (v : Regs) {base : Nat} {m : Memory} (h : m.wf = true) :
    ∀ {count : Nat}, base + count ≤ Config.memSize → (storeFirst v base count m).wf = true
  | 0, _ => h
  | k + 1, hk => Memory.wf_write (wf_storeFirst v h (by omega)) (by omega) _

/-- Storing the first `count` registers changes no byte outside the window. -/
theorem read_storeFirst_other (v : Regs) {base : Nat} (m : Memory) {a : Nat} :
    ∀ {count : Nat}, a < base ∨ base + count ≤ a → (storeFirst v base count m).read a = m.read a
  | 0, _ => rfl
  | k + 1, h => by
    rw [storeFirst, Memory.read_write_other (by omega), read_storeFirst_other v m (by omega)]

/-- Storing the first `count` registers leaves V[j] at base + j. -/
theorem read_storeFirst (v : Regs) {base : Nat} {m : Memory} (h : m.wf = true) :
    ∀ {count : Nat}, count ≤ 16 → base + count ≤ Config.memSize → ∀ (j : Nat) (hj : j < 16), j < count →
      (storeFirst v base count m).read (base + j) = v[j]
  | 0, _, _, j, _, hjc => absurd hjc (Nat.not_lt_zero j)
  | k + 1, hc, hb, j, hj, hjc => by
    rw [storeFirst, Memory.read_write (wf_storeFirst v h (by omega))]
    by_cases he : j = k
    · subst he
      rw [if_pos rfl]
      simp [Fin.getElem_fin, Fin.ofNat, Nat.mod_eq_of_lt hj]
    · rw [if_neg (by omega)]
      exact read_storeFirst v h (by omega) (by omega) j hj (by omega)

/-- Loading the first `count` registers: V[j] is M[base + j] for j below count, and every other register is unchanged. -/
theorem getElem_loadFirst (m : Memory) (base : Nat) (v : Regs) (j : Nat) (hj : j < 16) :
    ∀ {count : Nat}, count ≤ 16 → (loadFirst m base count v)[j] = if j < count then m.read (base + j) else v[j]
  | 0, _ => by simp [loadFirst]
  | k + 1, hc => by
    have hk : (Fin.ofNat 16 k).val = k := by simp [Fin.ofNat, Nat.mod_eq_of_lt (by omega : k < 16)]
    simp only [loadFirst, Vector.getElem_set, hk]
    by_cases he : k = j
    · subst he; simp
    · rw [if_neg he, getElem_loadFirst m base v j hj (by omega)]
      by_cases hlt : j < k
      · rw [if_pos hlt, if_pos (by omega)]
      · rw [if_neg hlt, if_neg (by omega)]

end Sys2Proof.Machine
end

