-- ==== Sys2Proof/Laws/Operations.lean ====
section
/-! SUPPORT. What each shared operation can do, one lemma each, which a proof cites instead of unfolding it. -/

set_option Elab.async false

namespace Sys2Proof.Machine

/-! ### The bounds check (20_memory.md R64) -/

/-- The check passes exactly when no byte is accessed or all of them are in 0x000 to 0xFFF. -/
theorem outOfRange_eq_none {base len : Nat} : outOfRange base len = none ↔ len = 0 ∨ base + len ≤ 0x1000 := by
  unfold outOfRange
  split
  · simp_all
  · simp_all; omega

/-- What the check reports. -/
theorem outOfRange_eq_some {base len d : Nat} :
    outOfRange base len = some d ↔ len ≠ 0 ∧ 0x1000 < base + len ∧ d = max base 0x1000 := by
  unfold outOfRange
  split
  · simp_all [eq_comm]
  · simp_all

/-- The check reports the lowest address out of range. -/
theorem outOfRange_least {base len d : Nat} (h : outOfRange base len = some d) :
    (base ≤ d ∧ d < base + len ∧ 0xFFF < d) ∧ ∀ a, base ≤ a → a < base + len → 0xFFF < a → d ≤ a := by
  obtain ⟨h0, h1, hd⟩ := outOfRange_eq_some.1 h
  refine ⟨by omega, fun a h2 h3 h4 => by omega⟩

/-- A checked access answers the next state t, or takes MemoryBounds. -/
theorem State.checked_cases {s t u : State} {i : Instr} {len : Nat} (h : s.checked i len t = .next u) :
    (outOfRange s.i.toNat len = none ∧ u = t) ∨
      ∃ d, outOfRange s.i.toNat len = some d ∧ u = s.raise i .memoryBounds (some d) := by
  unfold State.checked at h
  split at h <;> cases h
  · exact .inr ⟨_, ‹_›, rfl⟩
  · exact .inl ⟨‹_›, rfl⟩

/-- A checked access in range answers t. -/
theorem State.checked_inRange {s : State} {i : Instr} {len : Nat} (t : State) (h : len = 0 ∨ s.i.toNat + len ≤ 0x1000) :
    s.checked i len t = .next t := by
  simp only [State.checked, outOfRange_eq_none.2 h]

/-- A checked access out of range takes MemoryBounds with the lowest address out of range. -/
theorem State.checked_outOfRange {s : State} {i : Instr} {len : Nat} (t : State) (h0 : len ≠ 0)
    (h : 0x1000 < s.i.toNat + len) :
    s.checked i len t = .next (s.raise i .memoryBounds (some (max s.i.toNat 0x1000))) := by
  simp only [State.checked, outOfRange_eq_some.2 ⟨h0, h, rfl⟩]

/-! ### Timers and flags -/

/-- A tick counts down to 0 and stays there (60_exceptions.md R250). -/
@[simp] theorem tick_toNat (t : Byte) : (tick t).toNat = t.toNat - 1 := by
  unfold tick
  split
  · rename_i h; subst h; rfl
  · rename_i h
    have : t.toNat ≠ 0 := fun h0 => h (BitVec.eq_of_toNat_eq h0)
    rw [BitVec.toNat_sub]
    have := t.isLt
    simp
    omega

/-- A flag is 1 or 0. -/
theorem flagByte_eq (c : Bool) : flagByte c = if c = true then 1 else 0 := rfl

/-- A form without aliasing, and every form in a block built without VF_ALIAS_FAULT, answers its next state. -/
@[simp] theorem unlessAliased_false (b : Bool) (t : State) : unlessAliased false b t = .next t := rfl

/-- The parameter is at its default. -/
@[simp] theorem vfAliasFault_eq : Config.vfAliasFault = false := rfl

/-! ### The keypad (44_keypad_timers.md) -/

/-- V[x] names a key exactly when it is at most 0xF. -/
theorem State.keyOf_eq_some {s : State} {x : RegIdx} {k : Fin 16} : s.keyOf x = some k ↔ (s.reg x).toNat = k.val := by
  unfold State.keyOf
  split
  · simp [Fin.ext_iff]
  · simp only [reduceCtorEq, false_iff]
    have := k.isLt
    omega

/-- V[x] names no key exactly when it is above 0xF. -/
theorem State.keyOf_eq_none {s : State} {x : RegIdx} : s.keyOf x = none ↔ 0xF < (s.reg x).toNat := by
  unfold State.keyOf
  split <;> simp <;> omega

/-- The list P holds exactly the pressed keys. -/
@[simp] theorem State.mem_pressed {s : State} {k : Fin 16} : k ∈ s.pressed ↔ s.key k = true := by
  unfold State.pressed
  rw [List.mem_filter]
  have all : ∀ k : Fin 16, k ∈ ([0, 1, 2, 3, 4, 5, 6, 7, 8, 9, 10, 11, 12, 13, 14, 15] : List (Fin 16)) := by decide
  exact ⟨fun h => h.2, fun h => ⟨all k, h⟩⟩

/-- P is empty exactly when no key is pressed. -/
theorem State.pressed_eq_nil {s : State} : s.pressed = [] ↔ ∀ k, s.key k = false := by
  rw [List.eq_nil_iff_forall_not_mem]
  simp

/-- key_choice(P) is a member of P. -/
theorem chooseKey_mem (draw : Nat) (k : Fin 16) (ks : List (Fin 16)) : chooseKey draw k ks ∈ k :: ks := by
  cases ks with
  | nil => simp [chooseKey]
  | cons k' ks =>
    simp only [chooseKey]
    rw [List.getD_eq_getElem _ _ (Nat.mod_lt _ (by simp))]
    exact List.getElem_mem _

/-- A key's index as a register value is that index. -/
@[simp] theorem keyByte_toNat (k : Fin 16) : (keyByte k).toNat = k.val := by
  have := k.isLt
  simp only [keyByte, BitVec.toNat_ofNat]
  omega

/-! ### Taking a fault (60_exceptions.md R232) -/

/-- A raised fault changes nothing but PC, which is a again, the phase and the record. -/
theorem State.raise_eq (s : State) (i : Instr) (k : FaultKind) (d : Option Nat) :
    s.raise i k d = { s with pc := s.pc - 2, phase := .halted, fault := some ⟨k, some (encode i), s.pc - 2, d⟩ } := rfl

/-- While an instruction executes PC = a + 2, so PC - 2 is a. -/
@[simp] theorem pc_add_sub (w : Word) : w + 2 - 2 = w := by
  rw [BitVec.add_sub_cancel]

end Sys2Proof.Machine
end

