-- ==== Sys2Proof/Laws/Display.lean ====
section
/-! SUPPORT. What the display operations do, cell by cell (43_display.md). -/

set_option Elab.async false

namespace Sys2Proof.Machine

/-- A write of a cell is seen in that cell and nowhere else. -/
theorem Display.cell_setCell (d : Display) (c c' : Fin 64) (r r' : Fin 32) (b : Bool) :
    (d.setCell c r b).cell c' r' = if c = c' ∧ r = r' then b else d.cell c' r' := by
  simp only [Display.cell, Display.setCell, Fin.getElem_fin, Vector.getElem_set, Fin.ext_iff]
  by_cases hr : r.val = r'.val <;> by_cases hc : c.val = c'.val <;> simp [hr, hc]

/-- Every cell of the blank display is 0 (43_display.md R190). -/
@[simp] theorem Display.cell_blank (c : Fin 64) (r : Fin 32) : Display.blank.cell c r = false := by
  simp [Display.cell, Display.blank]

/-- Two displays are equal when all their cells are. -/
theorem Display.ext_cell {d d' : Display} (h : ∀ c r, d.cell c r = d'.cell c r) : d = d' := by
  apply Vector.ext
  intro r hr
  apply Vector.ext
  intro c hc
  exact h ⟨c, hc⟩ ⟨r, hr⟩

/-- Drawing a 1 bit inverts its cell and no other. -/
theorem Canvas.cell_plot (k : Canvas) (c c' : Fin 64) (r r' : Fin 32) :
    (k.plot c r).1.cell c' r' = if c = c' ∧ r = r' then !k.1.cell c' r' else k.1.cell c' r' := by
  simp only [Canvas.plot, Display.cell_setCell]
  split
  · rename_i h; rw [h.1, h.2]
  · rfl

/-- Drawing a 1 bit reports a collision exactly when its cell was lit (43_display.md R192). -/
@[simp] theorem Canvas.plot_collision (k : Canvas) (c : Fin 64) (r : Fin 32) :
    (k.plot c r).2 = (k.2 || k.1.cell c r) := rfl

/-- Columns right of the origin, counted with wrap. -/
theorem ofNat64_eq_iff {x0 k : Nat} (hx : x0 < 64) (hk : k < 64) (c : Fin 64) :
    Fin.ofNat 64 (x0 + k) = c ↔ (c.val + 64 - x0) % 64 = k := by
  have := c.isLt
  rw [Fin.ext_iff]
  simp only [Fin.ofNat]
  omega

/-- Rows below the origin, counted with wrap. -/
theorem ofNat32_eq_iff {y0 k : Nat} (hy : y0 < 32) (hk : k < 32) (r : Fin 32) :
    Fin.ofNat 32 (y0 + k) = r ↔ (r.val + 32 - y0) % 32 = k := by
  have := r.isLt
  rw [Fin.ext_iff]
  simp only [Fin.ofNat]
  omega

/-- Whether one of the first `count` bits of a sprite byte lies over column c, and is 1. -/
def byteBit (b : Byte) (x0 count : Nat) (c : Fin 64) : Bool :=
  let dc := (c.val + 64 - x0) % 64
  decide (dc < count) && b.getLsbD (7 - dc)

/-- Drawing the first `count` bits of a sprite byte inverts exactly the cells under its 1 bits, in its own row. -/
theorem cell_drawByte (b : Byte) {x0 : Nat} (hx : x0 < 64) (py : Fin 32) (k : Canvas) (c : Fin 64) (r : Fin 32) :
    ∀ {count : Nat}, count ≤ 8 →
      (drawByte b x0 py count k).1.cell c r = ((k.1.cell c r) ^^ (decide (py = r) && byteBit b x0 count c))
  | 0, _ => by simp [drawByte, byteBit]
  | n + 1, hn => by
    have ih := cell_drawByte b hx py k c r (count := n) (by omega)
    simp only [drawByte]
    by_cases hb : b.getLsbD (7 - n) = true
    · rw [if_pos hb, Canvas.cell_plot]
      simp only [ofNat64_eq_iff hx (by omega : n < 64) c, ih]
      by_cases hr : py = r
      · by_cases hc : (c.val + 64 - x0) % 64 = n
        · simp [hr, byteBit, hc, hb]
        · have : ((c.val + 64 - x0) % 64 < n + 1) ↔ ((c.val + 64 - x0) % 64 < n) := by omega
          simp [hr, byteBit, hc, this]
      · simp [hr]
    · rw [if_neg hb, ih]
      by_cases hc : (c.val + 64 - x0) % 64 = n
      · simp [byteBit, hc, hb]
      · have : ((c.val + 64 - x0) % 64 < n + 1) ↔ ((c.val + 64 - x0) % 64 < n) := by omega
        simp [byteBit, this]

end Sys2Proof.Machine
end

