-- ==== Sys2Proof/Laws/Encoding.lean ====
section
/-! SUPPORT. Words, fields and masks as numbers, so that a question about an encoding becomes arithmetic (30_encoding.md
R81 to R90). -/

set_option Elab.async false

namespace Sys2Proof

/-! ### Fields -/

theorem fieldC_toNat (w : Word) : (fieldC w).toNat = w.toNat / 4096 := by
  have := w.isLt
  simp only [fieldC, BitVec.extractLsb'_toNat, Nat.shiftRight_eq_div_pow]; omega

theorem fieldX_val (w : Word) : (fieldX w).val = w.toNat / 256 % 16 := by
  simp only [fieldX, BitVec.extractLsb'_toNat, Nat.shiftRight_eq_div_pow]

theorem fieldY_val (w : Word) : (fieldY w).val = w.toNat / 16 % 16 := by
  simp only [fieldY, BitVec.extractLsb'_toNat, Nat.shiftRight_eq_div_pow]

theorem fieldN_toNat (w : Word) : (fieldN w).toNat = w.toNat % 16 := by
  simp only [fieldN, BitVec.extractLsb'_toNat, Nat.shiftRight_eq_div_pow]; omega

theorem fieldKK_toNat (w : Word) : (fieldKK w).toNat = w.toNat % 256 := by
  simp only [fieldKK, BitVec.extractLsb'_toNat, Nat.shiftRight_eq_div_pow]; omega

theorem fieldNNN_toNat (w : Word) : (fieldNNN w).toNat = w.toNat % 4096 := by
  simp only [fieldNNN, BitVec.extractLsb'_toNat, Nat.shiftRight_eq_div_pow]; omega

/-! ### Encoded words -/

theorem encA_toNat {c : Nat} (hc : c < 16) (nnn : Addr12) : (encA c nnn).toNat = c * 4096 + nnn.toNat := by
  have := nnn.isLt
  simp only [encA, BitVec.toNat_ofNat]; omega

theorem encXK_toNat {c : Nat} (hc : c < 16) (x : RegIdx) (kk : Byte) :
    (encXK c x kk).toNat = c * 4096 + x.val * 256 + kk.toNat := by
  have := x.isLt; have := kk.isLt
  simp only [encXK, BitVec.toNat_ofNat]; omega

theorem ofNibbles_toNat {c x y n : Nat} (hc : c < 16) (hx : x < 16) (hy : y < 16) (hn : n < 16) :
    (ofNibbles c x y n).toNat = c * 4096 + x * 256 + y * 16 + n := by
  simp only [ofNibbles, BitVec.toNat_ofNat]; omega

/-! ### Fields of encoded words -/

theorem fieldC_encA {c : Nat} (hc : c < 16) (nnn : Addr12) : (fieldC (encA c nnn)).toNat = c := by
  have := nnn.isLt
  rw [fieldC_toNat, encA_toNat hc]; omega

theorem fieldNNN_encA {c : Nat} (hc : c < 16) (nnn : Addr12) : fieldNNN (encA c nnn) = nnn := by
  have := nnn.isLt
  apply BitVec.eq_of_toNat_eq
  rw [fieldNNN_toNat, encA_toNat hc]; omega

theorem fieldC_encXK {c : Nat} (hc : c < 16) (x : RegIdx) (kk : Byte) : (fieldC (encXK c x kk)).toNat = c := by
  have := x.isLt; have := kk.isLt
  rw [fieldC_toNat, encXK_toNat hc]; omega

theorem fieldX_encXK {c : Nat} (hc : c < 16) (x : RegIdx) (kk : Byte) : fieldX (encXK c x kk) = x := by
  have := x.isLt; have := kk.isLt
  apply Fin.ext
  rw [fieldX_val, encXK_toNat hc]; omega

theorem fieldKK_encXK {c : Nat} (hc : c < 16) (x : RegIdx) (kk : Byte) : fieldKK (encXK c x kk) = kk := by
  have := x.isLt; have := kk.isLt
  apply BitVec.eq_of_toNat_eq
  rw [fieldKK_toNat, encXK_toNat hc]; omega

theorem fieldC_ofNibbles {c n : Nat} (hc : c < 16) (x y : RegIdx) (hn : n < 16) :
    (fieldC (ofNibbles c x y n)).toNat = c := by
  have := x.isLt; have := y.isLt
  rw [fieldC_toNat, ofNibbles_toNat hc x.isLt y.isLt hn]; omega

theorem fieldX_ofNibbles {c n : Nat} (hc : c < 16) (x y : RegIdx) (hn : n < 16) :
    fieldX (ofNibbles c x y n) = x := by
  have := x.isLt; have := y.isLt
  apply Fin.ext
  rw [fieldX_val, ofNibbles_toNat hc x.isLt y.isLt hn]; omega

theorem fieldY_ofNibbles {c n : Nat} (hc : c < 16) (x y : RegIdx) (hn : n < 16) :
    fieldY (ofNibbles c x y n) = y := by
  have := x.isLt; have := y.isLt
  apply Fin.ext
  rw [fieldY_val, ofNibbles_toNat hc x.isLt y.isLt hn]; omega

theorem fieldN_ofNibbles {c n : Nat} (hc : c < 16) (x y : RegIdx) (hn : n < 16) :
    fieldN (ofNibbles c x y n) = BitVec.ofNat 4 n := by
  have := x.isLt; have := y.isLt
  apply BitVec.eq_of_toNat_eq
  rw [fieldN_toNat, ofNibbles_toNat hc x.isLt y.isLt hn, BitVec.toNat_ofNat]; omega

/-! ### Masks -/

theorem and_F000 (w : Word) : (w &&& 0xF000).toNat = w.toNat / 4096 * 4096 := by
  have h : w &&& 0xF000 = fieldC w ++ (0 : BitVec 12) := by
    apply BitVec.eq_of_getLsbD_eq; intro i hi
    simp only [fieldC, BitVec.getLsbD_and, BitVec.getLsbD_append, BitVec.getLsbD_extractLsb']
    interval_cases i <;> simp
  rw [h, BitVec.toNat_append, fieldC_toNat]; simp [Nat.shiftLeft_eq]

theorem and_F00F (w : Word) : (w &&& 0xF00F).toNat = w.toNat / 4096 * 4096 + w.toNat % 16 := by
  have h : w &&& 0xF00F = fieldC w ++ (0 : BitVec 8) ++ fieldN w := by
    apply BitVec.eq_of_getLsbD_eq; intro i hi
    simp only [fieldC, fieldN, BitVec.getLsbD_and, BitVec.getLsbD_append, BitVec.getLsbD_extractLsb']
    interval_cases i <;> simp
  rw [h, BitVec.toNat_append, BitVec.toNat_append, fieldC_toNat, fieldN_toNat,
    ← Nat.shiftLeft_add_eq_or_of_lt (by omega)]
  simp [Nat.shiftLeft_eq]; omega

theorem and_F0FF (w : Word) : (w &&& 0xF0FF).toNat = w.toNat / 4096 * 4096 + w.toNat % 256 := by
  have h : w &&& 0xF0FF = fieldC w ++ (0 : BitVec 4) ++ fieldKK w := by
    apply BitVec.eq_of_getLsbD_eq; intro i hi
    simp only [fieldC, fieldKK, BitVec.getLsbD_and, BitVec.getLsbD_append, BitVec.getLsbD_extractLsb']
    interval_cases i <;> simp
  rw [h, BitVec.toNat_append, BitVec.toNat_append, fieldC_toNat, fieldKK_toNat,
    ← Nat.shiftLeft_add_eq_or_of_lt (by omega)]
  simp [Nat.shiftLeft_eq]; omega

/-! ### Bytes of a word (20_memory.md R65) -/

theorem wordOfBytes_toNat (hi lo : Byte) : (wordOfBytes hi lo).toNat = hi.toNat * 256 + lo.toNat := by
  have := lo.isLt
  rw [wordOfBytes, BitVec.toNat_append, ← Nat.shiftLeft_add_eq_or_of_lt (by omega), Nat.shiftLeft_eq]

/-- The two bytes of a word, put together again, are the word. -/
@[simp] theorem wordOfBytes_bytesOfWord (w : Word) : wordOfBytes (bytesOfWord w).1 (bytesOfWord w).2 = w := by
  apply BitVec.eq_of_toNat_eq
  have := w.isLt
  rw [wordOfBytes_toNat]
  simp only [bytesOfWord, BitVec.extractLsb'_toNat, Nat.shiftRight_eq_div_pow]
  omega

/-- The decoder over bytes reads the word and leaves the rest. -/
theorem decodeBytes_bytesOfWord (w : Word) (rest : List Byte) :
    decodeBytes ((bytesOfWord w).1 :: (bytesOfWord w).2 :: rest) = (decode w).map (·, rest) := by
  rw [decodeBytes, wordOfBytes_bytesOfWord]

end Sys2Proof
end

