-- ==== Sys2Proof/Laws/Exec.lean ====
section
/-! SUPPORT. What executing an instruction and what a step can do, said once: a proof about every instruction or every step
starts from these cases instead of unfolding exec or the cycle. -/

set_option Elab.async false

namespace Sys2Proof.Machine

/-! ### One instruction -/

/-- What no instruction changes unless it faults: the phase, the fault record, loaded and the keypad (10_state.md R34, R39). -/
def KeepsRunStatus (s t : State) : Prop :=
  t.phase = s.phase ∧ t.fault = s.fault ∧ t.loaded = s.loaded ∧ t.keys = s.keys

/-- A checked access takes MemoryBounds or answers its next state. -/
theorem checked_next_cases {s t u : State} {i : Instr} {len : Nat} (h : s.checked i len t = .next u)
    (hk : mayRaise i .memoryBounds = true) (ht : KeepsRunStatus s t) :
    (∃ k d, mayRaise i k = true ∧ u = s.raise i k d) ∨ KeepsRunStatus s u := by
  rcases s.checked_cases h with ⟨-, rfl⟩ | ⟨d, -, rfl⟩
  · exact .inr ht
  · exact .inl ⟨_, _, hk, rfl⟩

/-- When an instruction answers a next state, either it took a fault of its own (60_exceptions.md R231), or it left the run
status alone. -/
theorem exec_next_cases {i : Instr} {s t : State} (h : exec i s = .next t) :
    (∃ k d, mayRaise i k = true ∧ t = s.raise i k d) ∨ KeepsRunStatus s t := by
  cases i with
  | ret =>
    simp only [exec, execRet] at h
    split at h
    · cases h; exact .inl ⟨_, _, rfl, rfl⟩
    · split at h <;> cases h
      exact .inr ⟨rfl, rfl, rfl, rfl⟩
  | call nnn =>
    simp only [exec, execCall] at h
    split at h
    · cases h; exact .inl ⟨_, _, rfl, rfl⟩
    · split at h <;> cases h
      exact .inr ⟨rfl, rfl, rfl, rfl⟩
  | seByte | sneByte | seReg | sneReg => cases h; right; simp [KeepsRunStatus]
  | skp x | sknp x =>
    simp only [exec, execSkp, execSknp] at h
    split at h <;> cases h
    · right; simp [KeepsRunStatus]
    · exact .inl ⟨_, _, rfl, rfl⟩
  | ldVxK x =>
    simp only [exec, execLdVxK] at h
    split at h <;> cases h <;> exact .inr ⟨rfl, rfl, rfl, rfl⟩
  | drw | ldB | storeRegs | loadRegs => exact checked_next_cases h rfl ⟨rfl, rfl, rfl, rfl⟩
  | cls | jp | ldByte | addByte | ldReg | orReg | andReg | xorReg | addReg | subReg | shr | subnReg | shl | ldI | jpV0 | rnd
  | ldVxDt | ldDtVx | ldStVx | addI | ldF => cases h; exact .inr ⟨rfl, rfl, rfl, rfl⟩

/-- Executing an instruction without a fault leaves the run status alone. -/
theorem exec_keeps_run_status {i : Instr} {s t : State} (h : exec i s = .next t) (ht : t.phase ≠ .halted) :
    KeepsRunStatus s t := by
  rcases exec_next_cases h with ⟨k, d, -, rfl⟩ | h'
  · exact absurd rfl ht
  · exact h'

/-- An instruction that ends halted, from a block that was not, took a fault of its own. -/
theorem exec_halted_iff_raise {i : Instr} {s t : State} (h : exec i s = .next t) (hs : s.phase ≠ .halted)
    (ht : t.phase = .halted) : ∃ k d, mayRaise i k = true ∧ t = s.raise i k d := by
  rcases exec_next_cases h with h' | h'
  · exact h'
  · exact absurd (h'.1 ▸ ht) hs

/-! ### One step -/

/-- What a step that answers a next state did (30_encoding.md R95). -/
inductive StepCase (s t : State) : Prop where
  /-- a halted block changes nothing -/
  | halted (hs : s.phase = .halted) (ht : t = s)
  /-- the fetch is out of range -/
  | fetchFault (hs : s.phase ≠ .halted) (d : Nat) (hd : outOfRange s.pc.toNat 2 = some d)
      (ht : t = s.takeFault .memoryBounds none s.pc (some d))
  /-- the word is no instruction -/
  | decodeFault (hs : s.phase ≠ .halted) (hf : outOfRange s.pc.toNat 2 = none) (e : DecodeError)
      (he : decode s.fetchWord = .error e) (ht : t = s.takeFault .decodeError (some s.fetchWord) s.pc none)
  /-- the instruction took a fault of its own -/
  | execFault (hs : s.phase ≠ .halted) (hf : outOfRange s.pc.toNat 2 = none) (i : Instr)
      (hi : decode s.fetchWord = .ok i) (k : FaultKind) (d : Option Nat) (hk : mayRaise i k = true)
      (hx : exec i s.advance = .next (s.advance.raise i k d)) (ht : t = s.advance.raise i k d)
  /-- the cycle completed -/
  | completed (hs : s.phase ≠ .halted) (hf : outOfRange s.pc.toNat 2 = none) (i : Instr)
      (hi : decode s.fetchWord = .ok i) (u : State) (hx : exec i s.advance = .next u)
      (hu : KeepsRunStatus s u) (ht : t = u.completeCycle)

/-- The cycle of a block that is not halted. -/
theorem step_of_not_halted {s : State} (hs : s.phase ≠ .halted) : step s = runCycle s := by
  unfold step cycle
  split
  · contradiction
  · rfl
  · rfl

/-- The cases of a step. -/
theorem step_cases {s t : State} (h : step s = .next t) : StepCase s t := by
  by_cases hs : s.phase = .halted
  · simp only [step, cycle, hs] at h
    cases h
    exact .halted hs rfl
  rw [step_of_not_halted hs] at h
  unfold runCycle at h
  split at h
  · cases h
    exact .fetchFault hs _ ‹_› rfl
  · rename_i hf
    unfold runWord at h
    split at h
    · cases h
      exact .decodeFault hs hf _ ‹_› rfl
    · rename_i i hi
      unfold afterExec at h
      split at h
      · rename_i u hx
        split at h <;> cases h
        · rename_i hu
          obtain ⟨k, d, hk, rfl⟩ := exec_halted_iff_raise hx hs hu
          exact .execFault hs hf i hi k d hk hx rfl
        · rename_i hu
          have hk : KeepsRunStatus s.advance u := exec_keeps_run_status hx hu
          exact .completed hs hf i hi u hx hk rfl
      · cases h
      · cases h

/-- A step of a block that is not halted, whose fetch is in range and decodes, is exec with what the cycle adds. -/
theorem step_of_decode {s : State} {i : Instr} (hs : s.phase ≠ .halted) (hpc : s.pc.toNat ≤ 0xFFE)
    (hi : decode s.fetchWord = .ok i) : step s = afterExec (exec i s.advance) := by
  rw [step_of_not_halted hs]
  simp only [runCycle, outOfRange_eq_none.2 (.inr (by omega) : 2 = 0 ∨ s.pc.toNat + 2 ≤ 0x1000), runWord, hi]

/-- A completed cycle executed its instruction to a next state that is not halted, and ticked. -/
theorem Completes.exec_next {i : Instr} {s t : State} (h : Completes i s t) :
    ∃ u, exec i s.advance = .next u ∧ KeepsRunStatus s u ∧ t = u.completeCycle := by
  obtain ⟨hs, hpc, hi, hst, ht⟩ := h
  cases step_cases hst with
  | halted h _ => exact absurd h hs
  | fetchFault _ d hd ht' => subst ht'; exact absurd rfl ht
  | decodeFault _ _ e he ht' => subst ht'; exact absurd rfl ht
  | execFault _ _ j hj k d hk hx ht' => subst ht'; exact absurd rfl ht
  | completed _ _ j hj u hx hu ht' =>
    rw [hi] at hj
    cases hj
    exact ⟨u, hx, hu, ht'⟩

end Sys2Proof.Machine
end

