-- ==== Sys2Proof/Laws/PerInstr.lean ====
section
/-! SUPPORT. Families of statements over every instruction as syntax, one lemma per constructor. -/

set_option Elab.async false

namespace Sys2Proof.Laws

/-! ### Sound encoding: the word of a well-formed instruction matches the row of the opcode map that its pattern names
(30_encoding.md R90). -/

namespace EncodesOnItsRow

/-- The word of a well-formed i matches the row of the opcode map that i's pattern names. -/
def Statement (i : Instr) : Prop :=
  i.wellFormed = true → ∃ r ∈ opcodeMap, r.pattern = i.pattern ∧ r.matches (encode i)

theorem cls : Statement (.cls) := fun _ => 
  ⟨⟨"00E0", 0x00E0, 0xFFFF⟩, by decide, rfl, by decide⟩

theorem ret : Statement (.ret) := fun _ => 
  ⟨⟨"00EE", 0x00EE, 0xFFFF⟩, by decide, rfl, by decide⟩

theorem jp (nnn : Addr12) : Statement (.jp nnn) := fun _ => 
  ⟨⟨"1nnn", 0x1000, 0xF000⟩, by decide, rfl, by
    apply BitVec.eq_of_toNat_eq
    have := nnn.isLt;
    rw [and_F000, encode, encA_toNat (by omega)]
    simp
    omega⟩

theorem call (nnn : Addr12) : Statement (.call nnn) := fun _ => 
  ⟨⟨"2nnn", 0x2000, 0xF000⟩, by decide, rfl, by
    apply BitVec.eq_of_toNat_eq
    have := nnn.isLt;
    rw [and_F000, encode, encA_toNat (by omega)]
    simp
    omega⟩

theorem seByte (x : RegIdx) (kk : Byte) : Statement (.seByte x kk) := fun _ => 
  ⟨⟨"3xkk", 0x3000, 0xF000⟩, by decide, rfl, by
    apply BitVec.eq_of_toNat_eq
    have := x.isLt; have := kk.isLt;
    rw [and_F000, encode, encXK_toNat (by omega)]
    simp
    omega⟩

theorem sneByte (x : RegIdx) (kk : Byte) : Statement (.sneByte x kk) := fun _ => 
  ⟨⟨"4xkk", 0x4000, 0xF000⟩, by decide, rfl, by
    apply BitVec.eq_of_toNat_eq
    have := x.isLt; have := kk.isLt;
    rw [and_F000, encode, encXK_toNat (by omega)]
    simp
    omega⟩

theorem seReg (x : RegIdx) (y : RegIdx) : Statement (.seReg x y) := fun _ => 
  ⟨⟨"5xy0", 0x5000, 0xF00F⟩, by decide, rfl, by
    apply BitVec.eq_of_toNat_eq
    have := x.isLt; have := y.isLt;
    rw [and_F00F, encode, ofNibbles_toNat (by omega) (by omega) (by omega) (by omega)]
    simp
    omega⟩

theorem ldByte (x : RegIdx) (kk : Byte) : Statement (.ldByte x kk) := fun _ => 
  ⟨⟨"6xkk", 0x6000, 0xF000⟩, by decide, rfl, by
    apply BitVec.eq_of_toNat_eq
    have := x.isLt; have := kk.isLt;
    rw [and_F000, encode, encXK_toNat (by omega)]
    simp
    omega⟩

theorem addByte (x : RegIdx) (kk : Byte) : Statement (.addByte x kk) := fun _ => 
  ⟨⟨"7xkk", 0x7000, 0xF000⟩, by decide, rfl, by
    apply BitVec.eq_of_toNat_eq
    have := x.isLt; have := kk.isLt;
    rw [and_F000, encode, encXK_toNat (by omega)]
    simp
    omega⟩

theorem ldReg (x : RegIdx) (y : RegIdx) : Statement (.ldReg x y) := fun _ => 
  ⟨⟨"8xy0", 0x8000, 0xF00F⟩, by decide, rfl, by
    apply BitVec.eq_of_toNat_eq
    have := x.isLt; have := y.isLt;
    rw [and_F00F, encode, ofNibbles_toNat (by omega) (by omega) (by omega) (by omega)]
    simp
    omega⟩

theorem orReg (x : RegIdx) (y : RegIdx) : Statement (.orReg x y) := fun _ => 
  ⟨⟨"8xy1", 0x8001, 0xF00F⟩, by decide, rfl, by
    apply BitVec.eq_of_toNat_eq
    have := x.isLt; have := y.isLt;
    rw [and_F00F, encode, ofNibbles_toNat (by omega) (by omega) (by omega) (by omega)]
    simp
    omega⟩

theorem andReg (x : RegIdx) (y : RegIdx) : Statement (.andReg x y) := fun _ => 
  ⟨⟨"8xy2", 0x8002, 0xF00F⟩, by decide, rfl, by
    apply BitVec.eq_of_toNat_eq
    have := x.isLt; have := y.isLt;
    rw [and_F00F, encode, ofNibbles_toNat (by omega) (by omega) (by omega) (by omega)]
    simp
    omega⟩

theorem xorReg (x : RegIdx) (y : RegIdx) : Statement (.xorReg x y) := fun _ => 
  ⟨⟨"8xy3", 0x8003, 0xF00F⟩, by decide, rfl, by
    apply BitVec.eq_of_toNat_eq
    have := x.isLt; have := y.isLt;
    rw [and_F00F, encode, ofNibbles_toNat (by omega) (by omega) (by omega) (by omega)]
    simp
    omega⟩

theorem addReg (x : RegIdx) (y : RegIdx) : Statement (.addReg x y) := fun _ => 
  ⟨⟨"8xy4", 0x8004, 0xF00F⟩, by decide, rfl, by
    apply BitVec.eq_of_toNat_eq
    have := x.isLt; have := y.isLt;
    rw [and_F00F, encode, ofNibbles_toNat (by omega) (by omega) (by omega) (by omega)]
    simp
    omega⟩

theorem subReg (x : RegIdx) (y : RegIdx) : Statement (.subReg x y) := fun _ => 
  ⟨⟨"8xy5", 0x8005, 0xF00F⟩, by decide, rfl, by
    apply BitVec.eq_of_toNat_eq
    have := x.isLt; have := y.isLt;
    rw [and_F00F, encode, ofNibbles_toNat (by omega) (by omega) (by omega) (by omega)]
    simp
    omega⟩

theorem shr (x : RegIdx) (y : RegIdx) : Statement (.shr x y) := fun _ => 
  ⟨⟨"8xy6", 0x8006, 0xF00F⟩, by decide, rfl, by
    apply BitVec.eq_of_toNat_eq
    have := x.isLt; have := y.isLt;
    rw [and_F00F, encode, ofNibbles_toNat (by omega) (by omega) (by omega) (by omega)]
    simp
    omega⟩

theorem subnReg (x : RegIdx) (y : RegIdx) : Statement (.subnReg x y) := fun _ => 
  ⟨⟨"8xy7", 0x8007, 0xF00F⟩, by decide, rfl, by
    apply BitVec.eq_of_toNat_eq
    have := x.isLt; have := y.isLt;
    rw [and_F00F, encode, ofNibbles_toNat (by omega) (by omega) (by omega) (by omega)]
    simp
    omega⟩

theorem shl (x : RegIdx) (y : RegIdx) : Statement (.shl x y) := fun _ => 
  ⟨⟨"8xyE", 0x800E, 0xF00F⟩, by decide, rfl, by
    apply BitVec.eq_of_toNat_eq
    have := x.isLt; have := y.isLt;
    rw [and_F00F, encode, ofNibbles_toNat (by omega) (by omega) (by omega) (by omega)]
    simp
    omega⟩

theorem sneReg (x : RegIdx) (y : RegIdx) : Statement (.sneReg x y) := fun _ => 
  ⟨⟨"9xy0", 0x9000, 0xF00F⟩, by decide, rfl, by
    apply BitVec.eq_of_toNat_eq
    have := x.isLt; have := y.isLt;
    rw [and_F00F, encode, ofNibbles_toNat (by omega) (by omega) (by omega) (by omega)]
    simp
    omega⟩

theorem ldI (nnn : Addr12) : Statement (.ldI nnn) := fun _ => 
  ⟨⟨"Annn", 0xA000, 0xF000⟩, by decide, rfl, by
    apply BitVec.eq_of_toNat_eq
    have := nnn.isLt;
    rw [and_F000, encode, encA_toNat (by omega)]
    simp
    omega⟩

theorem jpV0 (nnn : Addr12) : Statement (.jpV0 nnn) := fun _ => 
  ⟨⟨"Bnnn", 0xB000, 0xF000⟩, by decide, rfl, by
    apply BitVec.eq_of_toNat_eq
    have := nnn.isLt;
    rw [and_F000, encode, encA_toNat (by omega)]
    simp
    omega⟩

theorem rnd (x : RegIdx) (kk : Byte) : Statement (.rnd x kk) := fun _ => 
  ⟨⟨"Cxkk", 0xC000, 0xF000⟩, by decide, rfl, by
    apply BitVec.eq_of_toNat_eq
    have := x.isLt; have := kk.isLt;
    rw [and_F000, encode, encXK_toNat (by omega)]
    simp
    omega⟩

theorem drw (x : RegIdx) (y : RegIdx) (n : Nat) : Statement (.drw x y n) := fun h => 
  ⟨⟨"Dxyn", 0xD000, 0xF000⟩, by decide, rfl, by
    have hn : n ≤ 15 := by simpa [Instr.wellFormed] using h
    apply BitVec.eq_of_toNat_eq
    have := x.isLt; have := y.isLt;
    rw [and_F000, encode, ofNibbles_toNat (by omega) (by omega) (by omega) (by omega)]
    simp
    omega⟩

theorem skp (x : RegIdx) : Statement (.skp x) := fun _ => 
  ⟨⟨"Ex9E", 0xE09E, 0xF0FF⟩, by decide, rfl, by
    apply BitVec.eq_of_toNat_eq
    have := x.isLt;
    rw [and_F0FF, encode, encXK_toNat (by omega)]
    simp
    omega⟩

theorem sknp (x : RegIdx) : Statement (.sknp x) := fun _ => 
  ⟨⟨"ExA1", 0xE0A1, 0xF0FF⟩, by decide, rfl, by
    apply BitVec.eq_of_toNat_eq
    have := x.isLt;
    rw [and_F0FF, encode, encXK_toNat (by omega)]
    simp
    omega⟩

theorem ldVxDt (x : RegIdx) : Statement (.ldVxDt x) := fun _ => 
  ⟨⟨"Fx07", 0xF007, 0xF0FF⟩, by decide, rfl, by
    apply BitVec.eq_of_toNat_eq
    have := x.isLt;
    rw [and_F0FF, encode, encXK_toNat (by omega)]
    simp
    omega⟩

theorem ldVxK (x : RegIdx) : Statement (.ldVxK x) := fun _ => 
  ⟨⟨"Fx0A", 0xF00A, 0xF0FF⟩, by decide, rfl, by
    apply BitVec.eq_of_toNat_eq
    have := x.isLt;
    rw [and_F0FF, encode, encXK_toNat (by omega)]
    simp
    omega⟩

theorem ldDtVx (x : RegIdx) : Statement (.ldDtVx x) := fun _ => 
  ⟨⟨"Fx15", 0xF015, 0xF0FF⟩, by decide, rfl, by
    apply BitVec.eq_of_toNat_eq
    have := x.isLt;
    rw [and_F0FF, encode, encXK_toNat (by omega)]
    simp
    omega⟩

theorem ldStVx (x : RegIdx) : Statement (.ldStVx x) := fun _ => 
  ⟨⟨"Fx18", 0xF018, 0xF0FF⟩, by decide, rfl, by
    apply BitVec.eq_of_toNat_eq
    have := x.isLt;
    rw [and_F0FF, encode, encXK_toNat (by omega)]
    simp
    omega⟩

theorem addI (x : RegIdx) : Statement (.addI x) := fun _ => 
  ⟨⟨"Fx1E", 0xF01E, 0xF0FF⟩, by decide, rfl, by
    apply BitVec.eq_of_toNat_eq
    have := x.isLt;
    rw [and_F0FF, encode, encXK_toNat (by omega)]
    simp
    omega⟩

theorem ldF (x : RegIdx) : Statement (.ldF x) := fun _ => 
  ⟨⟨"Fx29", 0xF029, 0xF0FF⟩, by decide, rfl, by
    apply BitVec.eq_of_toNat_eq
    have := x.isLt;
    rw [and_F0FF, encode, encXK_toNat (by omega)]
    simp
    omega⟩

theorem ldB (x : RegIdx) : Statement (.ldB x) := fun _ => 
  ⟨⟨"Fx33", 0xF033, 0xF0FF⟩, by decide, rfl, by
    apply BitVec.eq_of_toNat_eq
    have := x.isLt;
    rw [and_F0FF, encode, encXK_toNat (by omega)]
    simp
    omega⟩

theorem storeRegs (x : RegIdx) : Statement (.storeRegs x) := fun _ => 
  ⟨⟨"Fx55", 0xF055, 0xF0FF⟩, by decide, rfl, by
    apply BitVec.eq_of_toNat_eq
    have := x.isLt;
    rw [and_F0FF, encode, encXK_toNat (by omega)]
    simp
    omega⟩

theorem loadRegs (x : RegIdx) : Statement (.loadRegs x) := fun _ => 
  ⟨⟨"Fx65", 0xF065, 0xF0FF⟩, by decide, rfl, by
    apply BitVec.eq_of_toNat_eq
    have := x.isLt;
    rw [and_F0FF, encode, encXK_toNat (by omega)]
    simp
    omega⟩

end EncodesOnItsRow

end Sys2Proof.Laws
end

