-- ==== Sys2Proof/Tests/Slice0.lean ====
section
/-! SUPPORT. The model's own tests: the well-formedness smoke test, every constructor's decoding by a word written out from
the spec's encoding of it, single cycles whose results stand in 95_test_vectors.md, and for every obligation with hypotheses
a state that meets them. -/

set_option Elab.async false

namespace Sys2Proof.Tests

open Sys2Proof Sys2Proof.Machine

/-! ### WellFormed (30_encoding.md R85: n is 0 to 15) -/

theorem test_wellFormed_refuses_row_count_16 : (Instr.drw 0 0 16).wellFormed = false := by decide
theorem test_wellFormed_accepts_row_count_15 : (Instr.drw 15 15 15).wellFormed = true := by decide

/-! ### Decode: one word per constructor, from the encodings of 30_encoding.md R90 -/

theorem test_decode_cls : decode 0b0000000011100000 = .ok .cls := by decide
theorem test_decode_ret : decode 0b0000000011101110 = .ok .ret := by decide
theorem test_decode_jp : decode 0b0001_1010_1011_1100 = .ok (.jp 0xABC) := by decide
theorem test_decode_call : decode 0b0010_1010_1011_1100 = .ok (.call 0xABC) := by decide
theorem test_decode_seByte : decode 0b0011_0101_1010_0110 = .ok (.seByte 5 0xA6) := by decide
theorem test_decode_sneByte : decode 0b0100_0101_1010_0110 = .ok (.sneByte 5 0xA6) := by decide
theorem test_decode_seReg : decode 0b0101_0101_1010_0000 = .ok (.seReg 5 10) := by decide
theorem test_decode_ldByte : decode 0b0110_0101_1010_0110 = .ok (.ldByte 5 0xA6) := by decide
theorem test_decode_addByte : decode 0b0111_0101_1010_0110 = .ok (.addByte 5 0xA6) := by decide
theorem test_decode_ldReg : decode 0b1000_0101_1010_0000 = .ok (.ldReg 5 10) := by decide
theorem test_decode_orReg : decode 0b1000_0101_1010_0001 = .ok (.orReg 5 10) := by decide
theorem test_decode_andReg : decode 0b1000_0101_1010_0010 = .ok (.andReg 5 10) := by decide
theorem test_decode_xorReg : decode 0b1000_0101_1010_0011 = .ok (.xorReg 5 10) := by decide
theorem test_decode_addReg : decode 0b1000_0101_1010_0100 = .ok (.addReg 5 10) := by decide
theorem test_decode_subReg : decode 0b1000_0101_1010_0101 = .ok (.subReg 5 10) := by decide
theorem test_decode_shr : decode 0b1000_0101_1010_0110 = .ok (.shr 5 10) := by decide
theorem test_decode_subnReg : decode 0b1000_0101_1010_0111 = .ok (.subnReg 5 10) := by decide
theorem test_decode_shl : decode 0b1000_0101_1010_1110 = .ok (.shl 5 10) := by decide
theorem test_decode_sneReg : decode 0b1001_0101_1010_0000 = .ok (.sneReg 5 10) := by decide
theorem test_decode_ldI : decode 0b1010_1010_1011_1100 = .ok (.ldI 0xABC) := by decide
theorem test_decode_jpV0 : decode 0b1011_1010_1011_1100 = .ok (.jpV0 0xABC) := by decide
theorem test_decode_rnd : decode 0b1100_0101_1010_0110 = .ok (.rnd 5 0xA6) := by decide
theorem test_decode_drw : decode 0b1101_0101_1010_0111 = .ok (.drw 5 10 7) := by decide
theorem test_decode_skp : decode 0b1110_0101_1001_1110 = .ok (.skp 5) := by decide
theorem test_decode_sknp : decode 0b1110_0101_1010_0001 = .ok (.sknp 5) := by decide
theorem test_decode_ldVxDt : decode 0b1111_0101_0000_0111 = .ok (.ldVxDt 5) := by decide
theorem test_decode_ldVxK : decode 0b1111_0101_0000_1010 = .ok (.ldVxK 5) := by decide
theorem test_decode_ldDtVx : decode 0b1111_0101_0001_0101 = .ok (.ldDtVx 5) := by decide
theorem test_decode_ldStVx : decode 0b1111_0101_0001_1000 = .ok (.ldStVx 5) := by decide
theorem test_decode_addI : decode 0b1111_0101_0001_1110 = .ok (.addI 5) := by decide
theorem test_decode_ldF : decode 0b1111_0101_0010_1001 = .ok (.ldF 5) := by decide
theorem test_decode_ldB : decode 0b1111_0101_0011_0011 = .ok (.ldB 5) := by decide
theorem test_decode_storeRegs : decode 0b1111_0101_0101_0101 = .ok (.storeRegs 5) := by decide
theorem test_decode_loadRegs : decode 0b1111_0101_0110_0101 = .ok (.loadRegs 5) := by decide
theorem test_decode_bytes_high_first : decodeBytes [0x63, 0x02, 0xFF] = .ok (.ldByte 3 2, [0xFF]) := by decide
theorem test_decode_bytes_truncated : decodeBytes [0x63] = .error .truncated := by decide

/-! ### Small states -/

/-- The reset state with some registers set. -/
def withRegs (rs : List (RegIdx × Byte)) (s : State := State.reset) : State := rs.foldl (fun s r => s.setReg r.1 r.2) s

/-- s with these bytes from address a on. -/
def withBytes (a : Nat) (bs : List Byte) (s : State := State.reset) : State := s.setMem (s.mem.writeBytes a bs)

/-- s with these keys pressed. -/
def withKeys (ks : List (Fin 16)) (s : State := State.reset) :
    State := { s with keys := Vector.ofFn fun k => ks.contains k }

/-- s at PC = a with the word w there. -/
def placed (a : Word) (w : Nat) (s : State) : State := (s.setPc a).withFetchWord 16 w

/-- Whether one step from s answers a next state where p holds. -/
def after (s : State) (p : State → Bool) : Bool :=
  match step s with
  | .next t => p t
  | .fault _ | .refused _ => false

/-- Whether one cycle of the word w at address a, from s, answers a next state where p holds. -/
def cycleOf (a : Word) (w : Nat) (s : State) (p : State → Bool) : Bool := after (placed a w s) p

/-- Whether t is in phase Halted with this record. -/
def faulted (k : FaultKind) (w : Option Word) (a : Word) (d : Option Nat) (t : State) : Bool :=
  decide (t.phase = .halted) && decide (t.pc = a) && decide (t.fault = some ⟨k, w, a, d⟩)

/-! ### Control flow (95_test_vectors.md X1 to X23) -/

theorem test_X1_jp : cycleOf 0x208 0x1204 .reset (fun t => t.pc = 0x204) := by decide
theorem test_X2_park : cycleOf 0x200 0x1200 { State.reset with dt := 2 } (fun t => t.pc = 0x200 && t.dt = 1) := by decide
theorem test_X4_call : cycleOf 0x204 0x2210 { State.reset with sp := 15 }
    (fun t => t.stack[15] = 0x206 && t.sp = 16 && t.pc = 0x210) := by decide
theorem test_X5_call_overflow : cycleOf 0x204 0x2210 { State.reset with sp := 16 }
    (fun t => faulted .stackOverflow (some 0x2210) 0x204 none t && t.sp = 16) := by decide
theorem test_X6_ret : cycleOf 0x212 0x00EE { State.reset with sp := 1, stack := State.reset.stack.set 0 0x206 }
    (fun t => t.sp = 0 && t.pc = 0x206 && t.stack[0] = 0x206) := by decide
theorem test_X7_ret_underflow : cycleOf 0x200 0x00EE .reset (faulted .stackUnderflow (some 0x00EE) 0x200 none) := by decide
theorem test_X10_seByte : cycleOf 0x200 0x3005 (withRegs [(0, 5)]) (fun t => t.pc = 0x204) := by decide
theorem test_X11_seByte : cycleOf 0x200 0x3005 (withRegs [(0, 6)]) (fun t => t.pc = 0x202) := by decide
theorem test_X13_sneByte : cycleOf 0x200 0x4005 (withRegs [(0, 5)]) (fun t => t.pc = 0x202) := by decide
theorem test_X14_sneByte : cycleOf 0x200 0x4005 .reset (fun t => t.pc = 0x204) := by decide
theorem test_X15_seReg : cycleOf 0x200 0x5120 (withRegs [(1, 9), (2, 9)]) (fun t => t.pc = 0x204) := by decide
theorem test_X17_sneReg : cycleOf 0x200 0x9120 (withRegs [(1, 9), (2, 9)]) (fun t => t.pc = 0x202) := by decide
theorem test_X22_jpV0 : cycleOf 0x200 0xBFFF (withRegs [(0, 0xFF)]) (fun t => t.pc = 0x10FE) := by decide
theorem test_X23_jpV0_uses_V0 : cycleOf 0x200 0xB5FF (withRegs [(0, 1), (5, 0x80)]) (fun t => t.pc = 0x600) := by decide

/-! ### Arithmetic (95_test_vectors.md A1 to A37) -/

theorem test_A1_ldByte : cycleOf 0x200 0x6A7B .reset (fun t => t.reg 0xA = 0x7B) := by decide
theorem test_A3_addByte : cycleOf 0x200 0x7001 (withRegs [(0, 0xFF), (15, 0x55)])
    (fun t => t.reg 0 = 0 && t.reg 15 = 0x55) := by decide
theorem test_A6_ldReg : cycleOf 0x200 0x82F0 (withRegs [(15, 1)]) (fun t => t.reg 2 = 1) := by decide
theorem test_A7_orReg : cycleOf 0x200 0x8121 (withRegs [(1, 0x0F), (2, 0xF0), (15, 0x33)])
    (fun t => t.reg 1 = 0xFF && t.reg 15 = 0x33) := by decide
theorem test_A8_andReg : cycleOf 0x200 0x8122 (withRegs [(1, 0x3C), (2, 0x0F)]) (fun t => t.reg 1 = 0x0C) := by decide
theorem test_A9_xorReg : cycleOf 0x200 0x8123 (withRegs [(1, 0x3C), (2, 0x0F)]) (fun t => t.reg 1 = 0x33) := by decide
theorem test_A15_addReg : cycleOf 0x200 0x8F14 (withRegs [(15, 0x10), (1, 0xF5)]) (fun t => t.reg 15 = 1) := by decide
theorem test_A16_addReg : cycleOf 0x200 0x81F4 (withRegs [(1, 0xF0), (15, 0x20)])
    (fun t => t.reg 1 = 0x10 && t.reg 15 = 1) := by decide
theorem test_A18_subReg : cycleOf 0x200 0x8125 (withRegs [(1, 5), (2, 5), (15, 7)])
    (fun t => t.reg 1 = 0 && t.reg 15 = 0) := by decide
theorem test_A20_subReg : cycleOf 0x200 0x8F15 (withRegs [(15, 0x10), (1, 3)]) (fun t => t.reg 15 = 0x0D) := by decide
theorem test_A24_shr : cycleOf 0x200 0x81E6 (withRegs [(1, 0xFE), (14, 1)])
    (fun t => t.reg 1 = 0x7F && t.reg 15 = 0) := by decide
theorem test_A25_shr : cycleOf 0x200 0x8F06 (withRegs [(15, 6)]) (fun t => t.reg 15 = 3) := by decide
theorem test_A26_subnReg : cycleOf 0x200 0x8127 (withRegs [(1, 10), (2, 5)])
    (fun t => t.reg 1 = 0xFB && t.reg 15 = 0) := by decide
theorem test_A30_subnReg : cycleOf 0x200 0x81F7 (withRegs [(1, 3), (15, 0x10)])
    (fun t => t.reg 1 = 0x0D && t.reg 15 = 1) := by decide
theorem test_A31_shl : cycleOf 0x200 0x860E (withRegs [(6, 0x81)]) (fun t => t.reg 6 = 2 && t.reg 15 = 1) := by decide
theorem test_A34_shl : cycleOf 0x200 0x8F1E (withRegs [(15, 0x81)]) (fun t => t.reg 15 = 2) := by decide
theorem test_A36_rnd (s : State) : ∃ t, exec (.rnd 3 0) s = .next t ∧ t.reg 3 = 0 := ⟨_, rfl, by simp⟩

/-! ### Index register and memory (95_test_vectors.md M1 to M22) -/

theorem test_M2_ldI : cycleOf 0x200 0xAFFF .reset (fun t => t.i = 0xFFF) := by decide
theorem test_M3_addI : cycleOf 0x200 0xF21E { withRegs [(2, 5)] with i := 0x0FFE }
    (fun t => t.i = 0x1003 && t.reg 15 = 0) := by decide
theorem test_M4_addI : cycleOf 0x200 0xF01E { withRegs [(0, 2)] with i := 0xFFFF } (fun t => t.i = 1) := by decide
theorem test_M5_ldF : cycleOf 0x200 0xF029 (withRegs [(0, 5)]) (fun t => t.i = 0x019) := by decide
theorem test_M8_ldF : cycleOf 0x200 0xF029 (withRegs [(0, 0xFF)]) (fun t => t.i = 0x4FB) := by decide
theorem test_M12_ldB : cycleOf 0x200 0xF033 { withRegs [(0, 42)] with i := 0xFFD }
    (fun t => t.mem.read 0xFFD = 0 && t.mem.read 0xFFE = 4 && t.mem.read 0xFFF = 2) := by decide
theorem test_M14_ldB_past_end : cycleOf 0x200 0xF033 { State.reset with i := 0x1005 }
    (faulted .memoryBounds (some 0xF033) 0x200 (some 0x1005)) := by decide
theorem test_M15_storeRegs : cycleOf 0x200 0xF155 { withRegs [(0, 0x2C), (1, 0x64), (2, 9)] with i := 0x400 }
    (fun t => t.mem.read 0x400 = 0x2C && t.mem.read 0x401 = 0x64 && t.mem.read 0x402 = 0 && t.i = 0x400) := by decide
theorem test_M18_storeRegs_past_end : cycleOf 0x200 0xFF55 { State.reset with i := 0xFF1 }
    (faulted .memoryBounds (some 0xFF55) 0x200 (some 0x1000)) := by decide
theorem test_M20_loadRegs : cycleOf 0x200 0xF265 { withBytes 0x300 [1, 2, 3, 4] with i := 0x300 }
    (fun t => t.reg 0 = 1 && t.reg 1 = 2 && t.reg 2 = 3 && t.reg 3 = 0 && t.i = 0x300) := by decide
theorem test_M22_loadRegs_past_end : cycleOf 0x200 0xF065 { State.reset with i := 0x1000 }
    (faulted .memoryBounds (some 0xF065) 0x200 (some 0x1000)) := by decide

/-! ### Display (95_test_vectors.md G1 to G11) -/

theorem test_G1_drw : cycleOf 0x200 0xD012 { withBytes 0x20E [0xC3, 0x81] (withRegs [(0, 62), (1, 31)]) with i := 0x20E }
    (fun t => t.display.cell 62 31 && t.display.cell 63 31 && t.display.cell 4 31 && t.display.cell 5 31 &&
      t.display.cell 62 0 && t.display.cell 5 0 && !t.display.cell 63 0 && !t.display.cell 0 31 && t.reg 15 = 0) := by
  decide +kernel
theorem test_X9_drw_collision : cycleOf 0x200 0xD011
    { withBytes 0x300 [0x80] with i := 0x300, display := State.reset.display.setCell 0 0 true }
    (fun t => !t.display.cell 0 0 && t.reg 15 = 1) := by decide +kernel
theorem test_G11_cls : cycleOf 0x200 0x00E0 { withRegs [(15, 1)] with display := State.reset.display.setCell 63 31 true }
    (fun t => !t.display.cell 63 31 && t.reg 15 = 1) := by decide +kernel

/-! ### Keypad and timers (95_test_vectors.md K1 to K15) -/

theorem test_K1_skp : cycleOf 0x300 0xE59E (withKeys [7] (withRegs [(5, 7)])) (fun t => t.pc = 0x304) := by decide
theorem test_K4_skp_no_key : cycleOf 0x200 0xE09E (withRegs [(0, 0x10)])
    (faulted .keyIndex (some 0xE09E) 0x200 (some 0x10)) := by decide
theorem test_K3_sknp : cycleOf 0x300 0xE5A1 (withRegs [(5, 7)]) (fun t => t.pc = 0x304) := by decide
theorem test_K5_ldVxK_waits : cycleOf 0x206 0xF20A { State.reset with dt := 3 } (fun t => t.pc = 0x206 && t.dt = 2) := by
  decide
theorem test_K6_ldVxK : cycleOf 0x206 0xF20A (withKeys [7]) (fun t => t.reg 2 = 7 && t.pc = 0x208) := by decide
theorem test_K8_ldVxDt : cycleOf 0x200 0xF107 { State.reset with dt := 2 } (fun t => t.reg 1 = 2 && t.dt = 1) := by decide
theorem test_K10_ldDtVx : cycleOf 0x200 0xF015 (withRegs [(0, 3)]) (fun t => t.dt = 2) := by decide
theorem test_K11_ldDtVx : cycleOf 0x200 0xF015 { State.reset with dt := 9 } (fun t => t.dt = 0) := by decide
theorem test_K12_ldStVx : cycleOf 0x200 0xF218 (withRegs [(2, 7)]) (fun t => t.st = 6 && t.soundFlag) := by decide
theorem test_K13_ldStVx : cycleOf 0x200 0xF218 (withRegs [(2, 1)]) (fun t => t.st = 0 && !t.soundFlag) := by decide

/-! ### The cycle, the loader and the decode faults (95_test_vectors.md E18 to E24, L1 to L4) -/

theorem test_E19_last_word : cycleOf 0xFFE 0x6007 .reset (fun t => t.reg 0 = 7 && t.pc = 0x1000) := by decide
theorem test_E20_fetch_past_end :
    after { State.reset with pc := 0xFFF } (faulted .memoryBounds none 0xFFF (some 0x1000)) := by
  decide
theorem test_E22_odd_pc : cycleOf 0x201 0x6105 .reset (fun t => t.reg 1 = 5 && t.pc = 0x203) := by decide
theorem test_E23_illegal_word_keeps_timers : cycleOf 0x200 0xFFFF { State.reset with dt := 3, st := 3 }
    (fun t => faulted .decodeError (some 0xFFFF) 0x200 none t && t.dt = 3 && t.st = 3) := by decide
theorem test_L4_second_load_refused : ({ State.reset with loaded := true } : State).load [] = .refused := by decide

/-! ### Witnesses: for every obligation with hypotheses, states and operands that meet them together -/

/-- Whether a cycle from s executes i to its end. -/
def completes (i : Instr) (s : State) : Bool :=
  decide (s.phase ≠ .halted) && decide (s.pc.toNat ≤ 0xFFE) && decide (decode s.fetchWord = .ok i) &&
    after s fun t => decide (t.phase ≠ .halted)

/-- A step whose next state meets a test. -/
theorem exists_of_after {s : State} {p : State → Bool} (h : after s p = true) : ∃ t, step s = .next t ∧ p t = true := by
  unfold after at h
  split at h
  · exact ⟨_, ‹_›, h⟩
  · cases h
  · cases h

theorem exists_completes {i : Instr} {s : State} (h : completes i s = true) : ∃ t, Completes i s t := by
  simp only [completes, Bool.and_eq_true, decide_eq_true_eq] at h
  obtain ⟨t, ht, hp⟩ := exists_of_after h.2
  exact ⟨t, h.1.1.1, h.1.1.2, h.1.2, ht, by simpa using hp⟩

theorem witness_DecodeOfEncodeIsTheInstruction : (Instr.drw 15 15 15).wellFormed = true := by decide
theorem witness_EncodeOfDecodeIsTheWord : decode 0x8AB6 = .ok (.shr 0xA 0xB) := by decide
theorem witness_AtMostOneRowMatches :
    ∃ r ∈ opcodeMap, (0xD3A7 : Word) &&& r.mask = r.bits := ⟨⟨"Dxyn", 0xD000, 0xF000⟩, by decide, by decide⟩
theorem witness_IllegalWordsByCategory :
    decode 0x00DF = .error .category0 ∧ decode 0x5FF1 = .error .category5 ∧ decode 0x8008 = .error .category8 ∧
    decode 0x900F = .error .category9 ∧ decode 0xE09F = .error .categoryE ∧ decode 0xF006 = .error .categoryF := by decide

/-- The last word of memory: LD V0, 7 at 0xFFE. -/
def lastWord : State := placed 0xFFE 0x6007 .reset

theorem witness_StepRunsTheDecodedInstruction :
    lastWord.phase ≠ .halted ∧ lastWord.pc.toNat ≤ 0xFFE ∧
    (0x6007 : Word).toNat = (lastWord.mem.read lastWord.pc.toNat).toNat * 0x100 +
      (lastWord.mem.read (lastWord.pc.toNat + 1)).toNat ∧
    decode 0x6007 = .ok (.ldByte 0 7) ∧
    ∃ t, exec (.ldByte 0 7) { lastWord with pc := lastWord.pc + 2 } = .next t :=
  ⟨by decide, by decide, by decide, by decide, _, rfl⟩

theorem witness_StepRunsTheDecodedInstruction_fault :
    (placed 0x200 0x00EE { State.reset with sp := 17 }).phase ≠ .halted ∧
    ∃ r, exec .ret (placed 0x200 0x00EE { State.reset with sp := 17 }).advance = .fault r := ⟨by decide, _, rfl⟩

/-- A block that a decode fault halted. -/
def haltedState : State := State.reset.takeFault .decodeError (some 0) 0x200 none

theorem witness_HaltedBlockIgnoresCycles : haltedState.phase = .halted := by decide
theorem witness_FetchPastTheEndFaults_lowest :
    ({ State.reset with pc := 0xFFF } : State).phase ≠ .halted ∧
    0xFFF ≤ ({ State.reset with pc := 0xFFF } : State).pc.toNat := by
  decide
theorem witness_FetchPastTheEndFaults_highest :
    ({ State.reset with pc := 0xFFFF } : State).phase ≠ .halted ∧
    0xFFF ≤ ({ State.reset with pc := 0xFFFF } : State).pc.toNat := by
  decide
theorem witness_IllegalWordFaults :
    State.reset.phase ≠ .halted ∧ State.reset.pc.toNat ≤ 0xFFE ∧
    decode State.reset.fetchWord = .error .category0 := by decide
theorem witness_TimersTick_halted : ∃ t, step haltedState = .next t ∧ haltedState.phase = .halted := ⟨_, rfl, rfl⟩
theorem witness_TimersTick_faulting : ∃ t, step State.reset = .next t ∧ t.phase = .halted := ⟨_, rfl, rfl⟩
theorem witness_TimersTick_completed : lastWord.phase ≠ .halted ∧ ∃ t, step lastWord = .next t ∧ t.phase ≠ .halted :=
  ⟨by decide, by simpa using exists_of_after (show after lastWord (fun t => t.phase ≠ .halted) = true by decide)⟩
theorem witness_PlacedWordRunsNext :
    ({ haltedState with pc := 0xFFF } : State).mem.wf = true ∧ decode 0xD3A7 = .ok (.drw 3 0xA 7) := by decide

theorem witness_LoadedProgramReadsBack_longest : (List.replicate 3584 (0xAB : Byte)).length ≤ 3584 := by
  rw [List.length_replicate]
theorem witness_LoaderAnswers_refused : State.reset.mem.wf = true ∧ haltedState.phase ≠ .reset := by decide
theorem witness_LoaderAnswers_loaded :
    State.reset.mem.wf = true ∧ ({ State.reset with loaded := true } : State).loaded = true := by decide
theorem witness_LoaderAnswers_tooLarge :
    State.reset.mem.wf = true ∧ State.reset.phase = .reset ∧ State.reset.loaded = false ∧
    3584 < (List.replicate 3585 (0 : Byte)).length := ⟨rfl, rfl, rfl, by rw [List.length_replicate]; decide⟩
theorem witness_LoaderAnswers_ok :
    State.reset.mem.wf = true ∧ State.reset.phase = .reset ∧ State.reset.loaded = false ∧
    (List.replicate 3584 (0 : Byte)).length ≤ 3584 := ⟨rfl, rfl, rfl, by rw [List.length_replicate]⟩

/-- The reset state meets the invariant. -/
theorem reset_inv : State.reset.Inv :=
  ⟨rfl, by decide, by decide, by decide, by simp [State.reset]⟩

theorem witness_EveryStepKeepsTheInvariant : State.reset.Inv ∧ ∃ t, step State.reset = .next t := ⟨reset_inv, _, rfl⟩
theorem witness_EveryHostRequestKeepsTheInvariant : State.reset.Inv ∧ ∃ t, State.reset.serve .reset = .next t :=
  ⟨reset_inv, _, rfl⟩
theorem witness_EveryStepFromTheInvariantAnswers : State.reset.Inv := reset_inv
theorem witness_EveryRunFromTheInvariantGoesOn : State.reset.Inv := reset_inv

theorem witness_FaultsArePrecise_decode :
    State.reset.phase ≠ .halted ∧ ∃ t, step State.reset = .next t ∧ t.phase = .halted := ⟨by decide, _, rfl, rfl⟩
theorem witness_FaultsArePrecise_fetch :
    ({ State.reset with pc := 0xFFF } : State).phase ≠ .halted ∧
    ∃ t, step { State.reset with pc := 0xFFF } = .next t ∧ t.phase = .halted := ⟨by decide, _, rfl, rfl⟩
theorem witness_EachInstructionRaisesOnlyItsFaults :
    State.reset.phase ≠ .halted ∧ ∃ t, exec .ret State.reset = .next t ∧ t.phase = .halted := ⟨by decide, _, rfl, rfl⟩
theorem witness_OnlyResetLeavesHalted : haltedState.phase = .halted := by decide
theorem witness_RegistersAreWritten :
    (∃ t, Completes (.ldByte 0 7) lastWord t) ∧ writesReg (.ldByte 0 7) 15 = false :=
  ⟨exists_completes (by decide), by decide⟩
theorem witness_PcAfterEachInstruction : ∃ t, Completes (.ldByte 0 7) lastWord t := exists_completes (by decide)
theorem witness_PcAfterReturn :
    ∃ t, Completes .ret (placed 0xFFE 0x00EE { State.reset with sp := 16 }) t := exists_completes (by decide)

/-- Fx33 with its three bytes at the top of memory. -/
def decimalAtTop : State := placed 0x200 0xF033 { withRegs [(0, 42)] with i := 0xFFD }

theorem witness_OnlyStoresChangeMemory :
    (∃ t, Completes (.ldB 0) decimalAtTop t) ∧ storesTo decimalAtTop (.ldB 0) 0xFFC = false :=
  ⟨exists_completes (by decide), by decide⟩
theorem witness_DisplayAndKeypadWriters :
    ∃ t, Completes .cls (placed 0x200 0x00E0 { State.reset with display := State.reset.display.setCell 0 0 true }) t :=
  exists_completes (by decide +kernel)
theorem witness_StackAndIndexWriters : ∃ t, Completes (.call 0x210) (placed 0x204 0x2210 .reset) t :=
  exists_completes (by decide)
theorem witness_FreeInputsReachOnlyTheirInstructions :
    (∀ x kk, Instr.skp 0 ≠ .rnd x kk) ∧ (∀ x, Instr.skp 0 ≠ .ldVxK x) ∧ ∃ t, exec (.skp 0) State.reset = .next t :=
  ⟨nofun, nofun, _, rfl⟩
theorem witness_FreeInputs_fault : ∃ r, exec .ret { State.reset with sp := 17 } = .fault r := ⟨_, rfl⟩
theorem witness_StaleStackEntriesAreInvisible :
    SameButStaleEntries State.reset { State.reset with stack := State.reset.stack.set 0 0x204 } ∧
    ∃ t, step State.reset = .next t :=
  ⟨⟨rfl, fun j h => absurd h (Nat.not_lt_zero j.val)⟩, _, rfl⟩

/-- A parked block (95_test_vectors.md X2). -/
def parked : State := placed 0xFFE 0x1FFE { State.reset with dt := 2, phase := .running }

theorem witness_ParkOnlyTicksTheTimers :
    parked.phase ≠ .halted ∧ parked.pc.toNat ≤ 0xFFE ∧ parked.fetchWord = (0x1000 ||| parked.pc) := by decide
theorem witness_RunsFromAFinalStateAreSafe : parked.Final := ⟨by decide, by decide, by decide⟩
theorem witness_CallThenReturnComesBack : ({ State.reset with sp := 15 } : State).sp.toNat < 16 := by decide
theorem witness_StoredBytesAreFetched :
    State.reset.mem.wf = true ∧ ({ State.reset with i := 0xFF0 } : State).i.toNat + (15 : RegIdx).val ≤ 0xFFF ∧
    (15 : Fin 16).val = (14 : Fin 16).val + 1 ∧ (15 : Fin 16) ≤ 15 ∧
    ({ State.reset with pc := 0xFFE } : State).pc.toNat = ({ State.reset with i := 0xFF0 } : State).i.toNat + (14 :
    Fin 16).val := by
  decide

theorem witness_Draw_no_row : (0 : Nat) ≤ 15 ∧
    ((0 : Nat) = 0 ∨ ({ State.reset with i := 0xFFFF } : State).i.toNat + 0 - 1 ≤ 0xFFF) := by
  decide
theorem witness_Draw_last_row : (15 : Nat) ≤ 15 ∧
    ((15 : Nat) = 0 ∨ ({ State.reset with i := 0xFF1 } : State).i.toNat + 15 - 1 ≤ 0xFFF) := by
  decide

/-- A draw of one row with a 1 bit, x = y = 0, then another (95_test_vectors.md G3). -/
theorem witness_DrawTwice :
    ∃ t, exec (.drw 0 0 1) { withBytes 0x300 [0x80] with i := 0x300 } = .next t ∧
      (t.reg 0).toNat % 64 = (({ withBytes 0x300 [0x80] with i := 0x300 } : State).reg 0).toNat % 64 ∧
      (t.reg 0).toNat % 32 = (({ withBytes 0x300 [0x80] with i := 0x300 } : State).reg 0).toNat % 32 :=
  ⟨_, rfl, by decide +kernel, by decide +kernel⟩

theorem witness_ReturnPopsTheStack_full : ({ State.reset with sp := 16 } : State).sp.toNat = (15 :
    Fin 16).val + 1 := by decide
theorem witness_ReturnPopsTheStack_one : ({ State.reset with sp := 1 } : State).sp.toNat = (0 : Fin 16).val + 1 := by decide
theorem witness_ReturnPopsTheStack_empty : State.reset.sp = 0 := by decide
theorem witness_CallPushesTheReturnAddress_empty : State.reset.sp.toNat = (0 : Fin 16).val := by decide
theorem witness_CallPushesTheReturnAddress_last : ({ State.reset with sp := 15 } : State).sp.toNat = (15 :
    Fin 16).val := by decide
theorem witness_CallPushesTheReturnAddress_full : ({ State.reset with sp := 16 } : State).sp = 16 := by decide
theorem witness_AliasedForms :
    ((15 : RegIdx) = 15 ∨ (0 : RegIdx) = 15) ∧ ((0 : RegIdx) = 15 ∨ (15 : RegIdx) = 15) ∧ (14 : RegIdx) ≠ 15 := by decide

theorem witness_DecimalDigitsAreStored :
    decimalAtTop.mem.wf = true ∧ decimalAtTop.i.toNat + 2 ≤ 0xFFF := by decide
theorem witness_RegistersAreStored_and_Loaded :
    State.reset.mem.wf = true ∧ ({ State.reset with i := 0xFF0 } : State).i.toNat + (15 : RegIdx).val ≤ 0xFFF := by decide
theorem witness_IndexedAccessPastTheEnd_ldB : 0xFFF < ({ State.reset with i := 0xFFE } : State).i.toNat + 2 := by decide
theorem witness_IndexedAccessPastTheEnd_regs :
    0xFFF < ({ State.reset with i := 0xFF1 } : State).i.toNat + (15 : RegIdx).val := by decide
theorem witness_IndexedAccessPastTheEnd_drw :
    0 < 15 ∧ 15 ≤ 15 ∧ 0xFFF < ({ State.reset with i := 0xFF2 } : State).i.toNat + 15 - 1 := by decide

theorem witness_KeySkips_last_key : ((withRegs [(0, 0xF)]).reg 0).toNat = (15 : Fin 16).val := by decide
theorem witness_KeySkips_no_key : 0xF < ((withRegs [(0, 0x10)]).reg 0).toNat := by decide
theorem witness_ReadDelayTimer : ∃ t, Completes (.ldVxDt 1) (placed 0x200 0xF107 { State.reset with dt := 2 }) t :=
  exists_completes (by decide)
theorem witness_SetTimers_delay : ∃ t, Completes (.ldDtVx 0) (placed 0x200 0xF015 (withRegs [(0, 0)])) t :=
  exists_completes (by decide)
theorem witness_SetTimers_sound : ∃ t, Completes (.ldStVx 2) (placed 0x200 0xF218 (withRegs [(2, 1)])) t :=
  exists_completes (by decide)
theorem witness_WaitForKey_none : ∀ k, State.reset.key k = false := by decide
theorem witness_WaitForKey_some : ∃ k, (withKeys [3, 9]).key k = true := ⟨3, by decide⟩
theorem witness_WaitForKey_one : (withKeys [0xF]).key 0xF = true ∧ ∀ j, (withKeys [0xF]).key j = true → j = 0xF := by decide

end Sys2Proof.Tests
end

section
/-! The loader (20_memory.md R74, R76): what an accepted load answers, and that the program it copied reads back. -/

namespace Sys2Proof.Machine

/-- The copied bytes end inside the address space: 0x200 + 3584 = 4096 (20_memory.md R74). -/
theorem programBase_add_length_le {rom : List Byte} (h : rom.length ≤ Config.romMax) :
    Config.programBase + rom.length ≤ Config.memSize :=
  Nat.add_le_add_left h Config.programBase

/-- An allowed load of at most 3584 bytes succeeds: it copies the bytes to 0x200 and sets loaded (20_memory.md R74). -/
theorem State.load_eq_ok {s : State} {rom : List Byte} (hphase : s.phase = .reset) (hloaded : s.loaded = false)
    (hlen : rom.length ≤ Config.romMax) :
    s.load rom = .ok { s with mem := s.mem.writeBytes Config.programBase rom, loaded := true } := by
  rw [State.load, if_pos ⟨hphase, hloaded⟩, if_neg (Nat.not_lt.mpr hlen)]

/-- Settles O16: the accepted load writes the program's bytes consecutively from 0x200 over the memory of reset, which is
canonical, and they end inside the address space; so each reads back and no other address changes. -/
theorem loadedProgramReadsBack : Obligations.LoadedProgramReadsBack := by
  intro rom hlen
  refine ⟨_, State.load_eq_ok rfl rfl hlen, ?readsBack, ?others⟩
  case readsBack =>
    exact Memory.read_writeBytes Memory.wf_reset (programBase_add_length_le hlen)
  case others =>
    exact fun a houtside => Memory.read_writeBytes_other houtside

end Sys2Proof.Machine
end

section
/-! The fields and the opcode map (30_encoding.md R84, R87 to R90): what the decoder answers encodes to the word, which lies
on the row the answer's pattern names; and which row's pattern the decoder answers depends only on bits that the row's mask
keeps. -/

namespace Sys2Proof

/-- Settles O2: the slices are the fields' values as the encoding laws give them. -/
theorem fieldsAreTheSlicesOfTheWord : Obligations.FieldsAreTheSlicesOfTheWord := fun w =>
  ⟨fieldC_toNat w, fieldX_val w, fieldY_val w, fieldN_toNat w, fieldKK_toNat w, fieldNNN_toNat w⟩

/-! ### A word is put together again from its fields (R81) -/

theorem encA_fields {w : Word} {c : Nat} (hc : (fieldC w).toNat = c) : encA c (fieldNNN w) = w := by
  apply BitVec.eq_of_toNat_eq
  rw [encA_toNat (by omega), fieldNNN_toNat, ← hc, fieldC_toNat]
  omega

theorem encXK_fields {w : Word} {c : Nat} (hc : (fieldC w).toNat = c) : encXK c (fieldX w) (fieldKK w) = w := by
  apply BitVec.eq_of_toNat_eq
  rw [encXK_toNat (by omega), fieldX_val, fieldKK_toNat, ← hc, fieldC_toNat]
  omega

theorem ofNibbles_fields {w : Word} {c : Nat} (hc : (fieldC w).toNat = c) :
    ofNibbles c (fieldX w) (fieldY w) (fieldN w).toNat = w := by
  apply BitVec.eq_of_toNat_eq
  rw [ofNibbles_toNat (by omega) (fieldX w).isLt (fieldY w).isLt (fieldN w).isLt, fieldX_val, fieldY_val, fieldN_toNat,
    ← hc, fieldC_toNat]
  omega

/-! ### What the decoder answers is well formed and encodes to the word (R88, R90) -/

theorem wf_encode_of_decode0 {nnn : Addr12} {i : Instr} (h : decode0 nnn = .ok i) :
    i.wellFormed = true ∧ encode i = encA 0x0 nnn := by
  unfold decode0 at h
  split at h
  · subst nnn; cases h; decide
  · split at h
    · subst nnn; cases h; decide
    · cases h

theorem wf_encode_of_decode8 {x y : RegIdx} {n : BitVec 4} {i : Instr} (h : decode8 x y n = .ok i) :
    i.wellFormed = true ∧ encode i = ofNibbles 0x8 x y n.toNat := by
  unfold decode8 at h
  split at h <;> cases h <;> simp [Instr.wellFormed, encode, *]

theorem wf_encode_of_decodeE {x : RegIdx} {kk : Byte} {i : Instr} (h : decodeE x kk = .ok i) :
    i.wellFormed = true ∧ encode i = encXK 0xE x kk := by
  unfold decodeE at h
  split at h <;> cases h <;> simp [Instr.wellFormed, encode, encXK, *]

theorem wf_encode_of_decodeF {x : RegIdx} {kk : Byte} {i : Instr} (h : decodeF x kk = .ok i) :
    i.wellFormed = true ∧ encode i = encXK 0xF x kk := by
  unfold decodeF at h
  split at h <;> cases h <;> simp [Instr.wellFormed, encode, encXK, *]

/-- Categories 5 and 9 answer only with n = 0 (R89). -/
theorem eq_of_ok_if_zero {n : BitVec 4} {i j : Instr} {e : DecodeError}
    (h : (if n = 0 then .ok j else .error e : Except DecodeError Instr) = .ok i) : n = 0 ∧ i = j := by
  split at h <;> cases h
  exact ⟨‹_›, rfl⟩

theorem wf_encode_of_decode {w : Word} {i : Instr} (h : decode w = .ok i) : i.wellFormed = true ∧ encode i = w := by
  unfold decode at h
  split at h
  case h_1 hc => rw [← encA_fields hc]; exact wf_encode_of_decode0 h
  case h_2 hc | h_3 hc | h_11 hc | h_12 hc => cases h; exact ⟨rfl, encA_fields hc⟩
  case h_4 hc | h_5 hc | h_7 hc | h_8 hc | h_13 hc => cases h; exact ⟨rfl, encXK_fields hc⟩
  case h_6 hc | h_10 hc =>
    obtain ⟨hn, rfl⟩ := eq_of_ok_if_zero h
    have := ofNibbles_fields hc
    rw [hn] at this
    exact ⟨rfl, this⟩
  case h_9 hc => rw [← ofNibbles_fields hc]; exact wf_encode_of_decode8 h
  case h_14 hc => cases h; exact ⟨decide_eq_true (Nat.le_of_lt_succ (fieldN w).isLt), ofNibbles_fields hc⟩
  case h_15 hc => rw [← encXK_fields hc]; exact wf_encode_of_decodeE h
  case h_16 =>
    have hc : (fieldC w).toNat = 0xF := by have := (fieldC w).isLt; simp only [imp_false] at *; omega
    rw [← encXK_fields hc]; exact wf_encode_of_decodeF h

/-! ### The row of an instruction -/

open Laws.EncodesOnItsRow in
/-- The word of every well-formed instruction matches the row that its pattern names. -/
theorem encode_matches_row (i : Instr) : Statement i := by
  cases i
  exacts [cls, ret, jp _, call _, seByte _ _, sneByte _ _, seReg _ _, ldByte _ _, addByte _ _, ldReg _ _, orReg _ _,
    andReg _ _, xorReg _ _, addReg _ _, subReg _ _, shr _ _, subnReg _ _, shl _ _, sneReg _ _, ldI _, jpV0 _, rnd _ _,
    drw _ _ _, skp _, sknp _, ldVxDt _, ldVxK _, ldDtVx _, ldStVx _, addI _, ldF _, ldB _, storeRegs _, loadRegs _]

/-- No two rows of the opcode map have one pattern. -/
theorem opcodeMap_pattern_injective :
    ∀ r ∈ opcodeMap, ∀ r' ∈ opcodeMap, r.pattern = r'.pattern → r = r' := by decide

/-- A word that decodes to an instruction of a row's pattern matches that row. -/
theorem matches_of_decode_pattern {r : OpcodeRow} (hr : r ∈ opcodeMap) {w : Word} {i : Instr} (h : decode w = .ok i)
    (hp : i.pattern = r.pattern) : r.matches w := by
  obtain ⟨hwf, henc⟩ := wf_encode_of_decode h
  obtain ⟨r', hr', hp', hm⟩ := encode_matches_row i hwf
  rw [← opcodeMap_pattern_injective r' hr' r hr (hp'.trans hp), ← henc]
  exact hm

/-! ### The bits that choose the pattern (R87 to R89) -/

theorem decode8_pattern (x y x' y' : RegIdx) (n : BitVec 4) :
    (decode8 x y n).map Instr.pattern = (decode8 x' y' n).map Instr.pattern := by
  unfold decode8
  split <;> rfl

theorem decodeE_pattern (x x' : RegIdx) (kk : Byte) :
    (decodeE x kk).map Instr.pattern = (decodeE x' kk).map Instr.pattern := by
  unfold decodeE
  split <;> rfl

theorem decodeF_pattern (x x' : RegIdx) (kk : Byte) :
    (decodeF x kk).map Instr.pattern = (decodeF x' kk).map Instr.pattern := by
  unfold decodeF
  split <;> rfl

/-- Two words of one category decode to one pattern when they agree in the field the category's second level reads. -/
theorem decode_pattern_congr {w v : Word} (hc : fieldC w = fieldC v)
    (hnnn : (fieldC v).toNat = 0x0 → fieldNNN w = fieldNNN v)
    (hn : (fieldC v).toNat = 0x5 ∨ (fieldC v).toNat = 0x8 ∨ (fieldC v).toNat = 0x9 → fieldN w = fieldN v)
    (hkk : 0xE ≤ (fieldC v).toNat → fieldKK w = fieldKK v) :
    (decode w).map Instr.pattern = (decode v).map Instr.pattern := by
  unfold decode
  rw [hc]
  split
  case h_1 h0 => rw [hnnn h0]
  case h_6 h5 => rw [hn (.inl h5)]; split <;> rfl
  case h_9 h8 => rw [hn (.inr (.inl h8))]; exact decode8_pattern ..
  case h_10 h9 => rw [hn (.inr (.inr h9))]; split <;> rfl
  case h_15 hE => rw [hkk hE.ge]; exact decodeE_pattern ..
  case h_16 =>
    have hF : 0xE ≤ (fieldC v).toNat := by simp only [imp_false] at *; omega
    rw [hkk hF]; exact decodeF_pattern ..
  all_goals rfl

theorem fieldC_and (w m : Word) : fieldC (w &&& m) = fieldC w &&& fieldC m := BitVec.extractLsb'_and
theorem fieldN_and (w m : Word) : fieldN (w &&& m) = fieldN w &&& fieldN m := BitVec.extractLsb'_and
theorem fieldKK_and (w m : Word) : fieldKK (w &&& m) = fieldKK w &&& fieldKK m := BitVec.extractLsb'_and
theorem fieldNNN_and (w m : Word) : fieldNNN (w &&& m) = fieldNNN w &&& fieldNNN m := BitVec.extractLsb'_and

/-- Every row's mask keeps the category, and the field that the category's second level reads. -/
theorem opcodeMap_mask_keeps_selectors : ∀ r ∈ opcodeMap,
    fieldC r.mask = .allOnes 4 ∧ ((fieldC r.bits).toNat = 0x0 → fieldNNN r.mask = .allOnes 12) ∧
    ((fieldC r.bits).toNat = 0x5 ∨ (fieldC r.bits).toNat = 0x8 ∨ (fieldC r.bits).toNat = 0x9 →
      fieldN r.mask = .allOnes 4) ∧
    (0xE ≤ (fieldC r.bits).toNat → fieldKK r.mask = .allOnes 8) := by decide

/-- The match bits of every row, as a word, decode to the row's pattern. -/
theorem decode_bits_pattern : ∀ r ∈ opcodeMap, (decode r.bits).map Instr.pattern = .ok r.pattern := by decide

/-- A word that matches a row decodes to the row's pattern: it agrees with the row's match bits in all that chooses the
pattern. -/
theorem decode_pattern_of_matches {r : OpcodeRow} (hr : r ∈ opcodeMap) {w : Word} (h : r.matches w) :
    (decode w).map Instr.pattern = .ok r.pattern := by
  obtain ⟨hc, hnnn, hn, hkk⟩ := opcodeMap_mask_keeps_selectors r hr
  rw [← decode_bits_pattern r hr]
  apply decode_pattern_congr
  case hc => rw [← h, fieldC_and, hc, BitVec.and_allOnes]
  case hnnn => intro h0; rw [← h, fieldNNN_and, hnnn h0, BitVec.and_allOnes]
  case hn => intro h589; rw [← h, fieldN_and, hn h589, BitVec.and_allOnes]
  case hkk => intro hEF; rw [← h, fieldKK_and, hkk hEF, BitVec.and_allOnes]

/-- A decoding has a pattern exactly when it answers an instruction of that pattern. -/
theorem map_pattern_eq_ok_iff {d : Except DecodeError Instr} {p : String} :
    d.map Instr.pattern = .ok p ↔ ∃ i, d = .ok i ∧ i.pattern = p := by
  cases d <;> simp [Except.map]

/-- Settles O5: a match fixes every bit that chooses the pattern, and conversely the decoded instruction encodes to the word,
which matches the one row of its pattern. -/
theorem decodeFollowsTheOpcodeMap : Obligations.DecodeFollowsTheOpcodeMap := by
  refine ⟨rfl, fun r hr w => ⟨fun h => ?decodes, fun ⟨i, hi, hp⟩ => ?onRow⟩⟩
  case decodes => exact map_pattern_eq_ok_iff.1 (decode_pattern_of_matches hr h)
  case onRow => exact matches_of_decode_pattern hr hi hp

end Sys2Proof
end

section
/-! The jump and the register skips (40_control_flow.md R120, R122, R124 to R127): each answers the state after one write of
PC. -/

namespace Sys2Proof.Machine

/-- A write of PC leaves every other part of the state as it was. -/
theorem frame_setPc (s : State) (a : Word) : Frame (· = .pc) s (s.setPc a) := by
  intro p hp
  cases p
  case pc => exact absurd rfl hp
  all_goals rfl

/-- A skip writes at most PC (R120). -/
theorem frame_skipIf (s : State) (c : Bool) : Frame (· = .pc) s (s.skipIf c) := by
  rw [State.skipIf_eq]
  exact frame_setPc s _

/-- An instruction whose whole effect is `skipIf` of its condition skips exactly when the condition holds. -/
theorem skipsExactlyWhen_of_exec_eq_skipIf {i : Instr} {c : Prop} [Decidable c] {s : State}
    (h : exec i s = .next (s.skipIf (decide c))) : SkipsExactlyWhen i c s := by
  refine ⟨_, h, fun hc => ?skipped, fun hc => ?notSkipped, frame_skipIf s _⟩
  case skipped => rw [State.skipIf_pc, decide_eq_true hc, if_pos rfl]
  case notSkipped => rw [State.skipIf_pc, decide_eq_false hc, if_neg Bool.false_ne_true]

/-- Zero-extension of an address keeps its value. -/
theorem zextAddr_toNat (a : Addr12) : (zextAddr a).toNat = a.toNat :=
  BitVec.toNat_setWidth_of_le (by decide)

/-- Settles O41: 1nnn is one write of PC, and the 12-bit address keeps its value in the 16 bits of PC. -/
theorem jumpSetsPc : Obligations.JumpSetsPc := fun s nnn =>
  ⟨s.setPc (zextAddr nnn), rfl, zextAddr_toNat nnn, frame_setPc s _⟩

/-- Settles O43: each of the four answers `skipIf` of its own condition. -/
theorem registerSkips : Obligations.RegisterSkips := by
  intro s x y kk
  refine ⟨?seByte, ?sneByte, ?seReg, ?sneReg⟩
  all_goals exact skipsExactlyWhen_of_exec_eq_skipIf rfl

end Sys2Proof.Machine
end

section
/-! The loads, the additions and the logic on registers (41_alu.md R141 to R146, R150): each answers the state after one or two
writes of registers. -/

namespace Sys2Proof.Machine

/-! ### Register writes and their frames -/

theorem Part.same_trans {s t u : State} {p : Part} (hst : p.Same s t) (htu : p.Same t u) : p.Same s u := by
  cases p
  all_goals exact Eq.trans htu hst

/-- What two steps leave unchanged, each within its own frame, is what neither frame names. -/
theorem Frame.trans {V W : Part → Prop} {s t u : State} (hst : Frame V s t) (htu : Frame W t u) :
    Frame (fun p => V p ∨ W p) s u := by
  intro p hp
  obtain ⟨hV, hW⟩ := not_or.1 hp
  exact Part.same_trans (hst p hV) (htu p hW)

theorem State.reg_setReg_self (s : State) (r : RegIdx) (b : Byte) : (s.setReg r b).reg r = b :=
  (s.reg_setReg r r b).trans (if_pos rfl)

theorem State.reg_setReg_of_ne (s : State) {r j : RegIdx} (b : Byte) (h : r ≠ j) : (s.setReg r b).reg j = s.reg j :=
  (s.reg_setReg r j b).trans (if_neg h)

/-- A write of V[r] leaves every other part of the state as it was. -/
theorem frame_setReg (s : State) (r : RegIdx) (b : Byte) : Frame (· = .reg r) s (s.setReg r b) := by
  intro p hp
  cases p
  case reg j =>
    have hrj : r ≠ j := fun h => hp (congrArg Part.reg h.symm)
    exact s.reg_setReg_of_ne b hrj
  all_goals rfl

/-- An instruction whose whole effect is one write of V[x] writes only V[x]. -/
theorem writesOnlyReg_of_exec_eq_setReg {i : Instr} {x : RegIdx} {b : Byte} {s : State}
    (h : exec i s = .next (s.setReg x b)) : WritesOnlyReg i x b s :=
  ⟨s.setReg x b, h, s.reg_setReg_self x b, frame_setReg s x b⟩

/-! ### Sums of bytes and their carry -/

/-- The sum of two bytes, written as a number modulo 256 (R142). -/
theorem add_eq_ofNat_mod (p q : Byte) : p + q = BitVec.ofNat 8 ((p.toNat + q.toNat) % 256) := by
  rw [← BitVec.toNat_add, BitVec.ofNat_toNat, BitVec.setWidth_eq]

theorem flagByte_decide_toNat (c : Prop) [Decidable c] : (flagByte (decide c)).toNat = if c then 1 else 0 := by
  by_cases hc : c
  · rw [decide_eq_true hc, if_pos hc]; rfl
  · rw [decide_eq_false hc, if_neg hc]; rfl

/-! ### The instructions -/

/-- Settles O45: each of the six is one write of V[x]; the sum of 7xkk is that of bytes, so it is taken modulo 256. -/
theorem loadAddAndLogicWriteOnlyVx : Obligations.LoadAddAndLogicWriteOnlyVx := by
  intro s x y kk
  rw [← add_eq_ofNat_mod]
  refine ⟨?ldByte, ?addByte, ?ldReg, ?orReg, ?andReg, ?xorReg⟩
  all_goals exact writesOnlyReg_of_exec_eq_setReg rfl

/-- Settles O46: V[x] receives the sum and then VF the carry, so the carry stands in VF also for x = F, and the sum is
overwritten only there. -/
theorem addRegistersWithCarry : Obligations.AddRegistersWithCarry := by
  intro s x y
  refine ⟨(s.setReg x (s.reg x + s.reg y)).setReg 15 (carryFlag (s.reg x) (s.reg y)), rfl, ?carry, fun hx => ?sum, ?frame⟩
  case carry => rw [State.reg_setReg_self]; exact flagByte_decide_toNat _
  case sum => rw [State.reg_setReg_of_ne _ _ hx.symm, State.reg_setReg_self, BitVec.toNat_add]
  case frame => exact (frame_setReg s x _).trans (frame_setReg _ 15 _)

end Sys2Proof.Machine
end

section
/-! The load of the index register (42_index_memory.md R170): it answers the state after one write of I. -/

namespace Sys2Proof.Machine

/-- A write of I leaves every other part of the state as it was. -/
theorem frame_setI (s : State) (a : Word) : Frame (· = .index) s (s.setI a) := by
  intro p hp
  cases p
  case index => exact absurd rfl hp
  all_goals rfl

/-- Annn is one write of I, with nnn zero-extended (R170). -/
theorem exec_ldI (s : State) (nnn : Addr12) : exec (.ldI nnn) s = .next (s.setI (zextAddr nnn)) := rfl

/-- Settles O51: Annn is one write of I, and zero-extension keeps the number nnn. -/
theorem loadIndexRegister : Obligations.LoadIndexRegister := fun s nnn =>
  ⟨s.setI (zextAddr nnn), exec_ldI s nnn, zextAddr_toNat nnn, frame_setI s (zextAddr nnn)⟩

end Sys2Proof.Machine
end

section
/-! Clearing the display (43_display.md R190): it answers the state after one write of the display. -/

namespace Sys2Proof.Machine

/-- A write of the display leaves every other part of the state as it was. -/
theorem frame_setDisplay (s : State) (d : Display) : Frame (fun p => ∃ c r, p = .cell c r) s (s.setDisplay d) := by
  intro p hp
  cases p
  case cell c r => exact absurd ⟨c, r, rfl⟩ hp
  all_goals rfl

/-- 00E0 is one write of the display, with the blank one (R190). -/
theorem exec_cls (s : State) : exec .cls s = .next (s.setDisplay Display.blank) := rfl

/-- Settles O37: 00E0 is one write of the display, and every cell of the blank display is 0. -/
theorem clearDisplay : Obligations.ClearDisplay := fun s =>
  ⟨s.setDisplay Display.blank, exec_cls s, Display.cell_blank, frame_setDisplay s Display.blank⟩

end Sys2Proof.Machine
end

section
/-! Reading the delay timer (44_keypad_timers.md R212): the cycle reads DT in execute, and ticks after it. -/

namespace Sys2Proof.Machine

/-- A completed cycle ends in what execute answered, ticked (30_encoding.md R95). -/
theorem Completes.eq_completeCycle {i : Instr} {s t u : State} (h : Completes i s t)
    (hexec : exec i s.advance = .next u) : t = u.completeCycle := by
  obtain ⟨u', hexec', -, ht⟩ := h.exec_next
  have hu : u' = u := Host.Outcome.next.inj (hexec'.symm.trans hexec)
  rw [ht, hu]

/-- Fx07 is one write of V[x], with DT (R212). -/
theorem exec_ldVxDt (s : State) (x : RegIdx) : exec (.ldVxDt x) s = .next (s.setReg x s.dt) := rfl

/-- Settles O58: Fx07 is one write of V[x] with DT, which the PC's advance has left as it was; the tick comes after that
write and keeps V[x]. -/
theorem readDelayTimer : Obligations.ReadDelayTimer := by
  refine fun s x => ⟨writesOnlyReg_of_exec_eq_setReg (exec_ldVxDt s x), fun t hcycle => ?completed⟩
  case completed =>
    have ht : t = (s.advance.setReg x s.dt).completeCycle := hcycle.eq_completeCycle (exec_ldVxDt s.advance x)
    subst ht
    refine ⟨?value, ?tick⟩
    case value => rw [State.completeCycle_reg, State.reg_setReg_self]
    case tick => rw [State.completeCycle_dt, tick_toNat, State.setReg_dt, State.advance_dt]

end Sys2Proof.Machine
end

section
/-! The timer tick (60_exceptions.md R250): execute leaves both timers but for Fx15 and Fx18, a fault leaves both, and a
completed cycle then ticks each once. -/

namespace Sys2Proof.Machine

/-- Both timers have the same values in s and t. -/
def KeepsTimers (s t : State) : Prop := t.dt = s.dt ∧ t.st = s.st

/-- A skip writes at most PC. -/
theorem keepsTimers_skipIf (s : State) (c : Bool) : KeepsTimers s (s.skipIf c) := ⟨s.skipIf_dt c, s.skipIf_st c⟩

/-- A checked access that leaves the timers when in range leaves them when it faults. -/
theorem keepsTimers_of_checked {s t u : State} {i : Instr} {len : Nat} (h : s.checked i len t = .next u)
    (ht : KeepsTimers s t) : KeepsTimers s u := by
  obtain ⟨-, rfl⟩ | ⟨d, -, rfl⟩ := s.checked_cases h
  · exact ht
  · exact ⟨rfl, rfl⟩

/-- What an instruction does to the timers: Fx15 writes DT alone, Fx18 writes ST alone (44_keypad_timers.md R214, R215), and
any other, faulting or not, writes neither. -/
theorem exec_timer_cases {i : Instr} {s u : State} (h : exec i s = .next u) :
    (∃ x, i = .ldDtVx x ∧ u = s.setDt (s.reg x)) ∨ (∃ x, i = .ldStVx x ∧ u = s.setSt (s.reg x)) ∨
      KeepsTimers s u := by
  cases i with
  | ldDtVx x => cases h; exact .inl ⟨x, rfl, rfl⟩
  | ldStVx x => cases h; exact .inr (.inl ⟨x, rfl, rfl⟩)
  | ret | call nnn =>
    simp only [exec, execRet, execCall] at h
    split at h
    · cases h; exact .inr (.inr ⟨rfl, rfl⟩)
    · split at h <;> cases h
      exact .inr (.inr ⟨rfl, rfl⟩)
  | seByte | sneByte | seReg | sneReg => cases h; exact .inr (.inr (keepsTimers_skipIf s _))
  | skp x | sknp x =>
    simp only [exec, execSkp, execSknp] at h
    split at h <;> cases h
    · exact .inr (.inr (keepsTimers_skipIf s _))
    · exact .inr (.inr ⟨rfl, rfl⟩)
  | ldVxK x =>
    simp only [exec, execLdVxK] at h
    split at h <;> cases h <;> exact .inr (.inr ⟨rfl, rfl⟩)
  | drw | ldB | storeRegs | loadRegs => exact .inr (.inr (keepsTimers_of_checked h ⟨rfl, rfl⟩))
  | cls | jp | ldByte | addByte | ldReg | orReg | andReg | xorReg | addReg | subReg | shr | subnReg | shl | ldI | jpV0 | rnd
  | ldVxDt | addI | ldF => cases h; exact .inr (.inr ⟨rfl, rfl⟩)

/-- Only Fx15 writes DT in execute. -/
theorem exec_dt_eq {i : Instr} {s u : State} (h : exec i s = .next u) (hi : ∀ x, i ≠ .ldDtVx x) : u.dt = s.dt := by
  obtain ⟨x, hx, -⟩ | ⟨x, -, rfl⟩ | hkeep := exec_timer_cases h
  · exact absurd hx (hi x)
  · exact s.setSt_dt _
  · exact hkeep.1

/-- Only Fx18 writes ST in execute. -/
theorem exec_st_eq {i : Instr} {s u : State} (h : exec i s = .next u) (hi : ∀ x, i ≠ .ldStVx x) : u.st = s.st := by
  obtain ⟨x, -, rfl⟩ | ⟨x, hx, -⟩ | hkeep := exec_timer_cases h
  · exact s.setDt_st _
  · exact absurd hx (hi x)
  · exact hkeep.2

/-- Completing a cycle halts no block (30_encoding.md R95). -/
theorem State.completeCycle_phase_ne_halted {s : State} (h : s.phase ≠ .halted) : s.completeCycle.phase ≠ .halted := by
  rw [State.completeCycle_phase]
  split
  · decide
  · exact h

/-- A step of a halted block and a step that ends halted leave both timers. -/
theorem step_keepsTimers_of_halted {s t : State} (hstep : step s = .next t) (h : s.phase = .halted ∨ t.phase = .halted) :
    KeepsTimers s t := by
  cases step_cases hstep with
  | halted _ ht | fetchFault _ _ _ ht | decodeFault _ _ _ _ ht | execFault _ _ _ _ _ _ _ _ ht =>
    subst ht; exact ⟨rfl, rfl⟩
  | completed hs _ i _ u _ hu ht =>
    obtain ⟨hphase, -⟩ := hu
    have hrun : t.phase ≠ .halted := ht ▸ State.completeCycle_phase_ne_halted (hphase ▸ hs)
    exact absurd h (not_or.2 ⟨hs, hrun⟩)

/-- A step that neither starts nor ends halted executed the instruction it decoded, then completed the cycle. -/
theorem step_completes {s t : State} (hstep : step s = .next t) (hs : s.phase ≠ .halted) (ht : t.phase ≠ .halted) :
    ∃ i u, decode s.fetchWord = .ok i ∧ exec i s.advance = .next u ∧ t = u.completeCycle := by
  cases step_cases hstep with
  | halted h _ => exact absurd h hs
  | fetchFault _ _ _ h | decodeFault _ _ _ _ h | execFault _ _ _ _ _ _ _ _ h => subst h; exact absurd rfl ht
  | completed _ _ i hi u hx _ h => exact ⟨i, u, hi, hx, h⟩

/-- Settles O12: a step that starts or ends halted leaves the timers; any other completed its cycle, whose tick counts each
timer down once from what the instruction left. -/
theorem timersTickOncePerCompletedCycle : Obligations.TimersTickOncePerCompletedCycle := by
  refine fun s t hstep => ⟨step_keepsTimers_of_halted hstep, fun hs ht => ?completed⟩
  case completed =>
    obtain ⟨i, u, hi, hexec, rfl⟩ := step_completes hstep hs ht
    have hdt : u.completeCycle.dt.toNat = u.dt.toNat - 1 := by rw [State.completeCycle_dt, tick_toNat]
    have hst : u.completeCycle.st.toNat = u.st.toNat - 1 := by rw [State.completeCycle_st, tick_toNat]
    exact ⟨i, u, hi, hexec, hdt, hst, fun hne => (exec_dt_eq hexec hne).trans s.advance_dt,
      fun hne => (exec_st_eq hexec hne).trans s.advance_st⟩

end Sys2Proof.Machine
end

section
/-! The reset state (70_reset_and_hazards.md R270, 10_state.md R48): what each part of it reads as, and that the reset operation
(R271) gives the same state from every state. -/

namespace Sys2Proof.Machine

/-- Below 0x050 an unlisted address reads as the font table (20_memory.md R61). -/
theorem Memory.unlisted_of_lt {a : Nat} (h : a < 80) : Memory.unlisted a = Config.font ⟨a, h⟩ := dif_pos h

/-- From 0x050 on an unlisted address reads as 0 (20_memory.md R61). -/
theorem Memory.unlisted_of_le {a : Nat} (h : 80 ≤ a) : Memory.unlisted a = 0 := dif_neg (Nat.not_lt.mpr h)

/-- Reset memory lists nothing. -/
@[simp] theorem State.reset_read (a : Nat) : State.reset.mem.read a = Memory.unlisted a := rfl

@[simp] theorem State.reset_reg (r : RegIdx) : State.reset.reg r = 0 := Vector.getElem_replicate r.isLt

@[simp] theorem State.reset_stack (j : Fin 16) : State.reset.stack[j] = 0 := Vector.getElem_replicate j.isLt

@[simp] theorem State.reset_key (k : Fin 16) : State.reset.key k = false := Vector.getElem_replicate k.isLt

@[simp] theorem State.reset_cell (c : Fin 64) (r : Fin 32) : State.reset.display.cell c r = false := Display.cell_blank c r

/-- PC at reset is the entry point 0x200, so the word fetched is the one at 0x200 and 0x201. -/
theorem State.reset_fetchWord :
    State.reset.fetchWord = wordOfBytes (State.reset.mem.read 0x200) (State.reset.mem.read 0x201) := rfl

/-- The reset operation keeps nothing of the state before it but the model's own counter (R271; log 9). -/
theorem frame_hostReset (s : State) : Frame (· = .draws) State.reset s.hostReset := by
  intro p hp
  cases p
  case draws => exact absurd rfl hp
  all_goals rfl

/-- Settles O14: memory, the vectors and the display by what their cells read as at reset, the single fields by the
definition of the reset state, the reset operation by its frame. -/
theorem resetStateIsAsStated : Obligations.ResetStateIsAsStated := by
  refine ⟨fun a ha => ?font, fun a ha _ => ?zeros, State.reset_reg, ?i, ?pc, ?sp, State.reset_stack, ?dt, ?st,
    State.reset_key, State.reset_cell, ?phase, ?fault, ?loaded, State.reset_fetchWord, frame_hostReset⟩
  case font => rw [State.reset_read, Memory.unlisted_of_lt ha]
  case zeros => rw [State.reset_read, Memory.unlisted_of_le ha]
  all_goals rfl

end Sys2Proof.Machine
end

section
/-! The decoder and the encoder against each other, and the words that are no instruction (30_encoding.md sections 3 and 4). -/

namespace Sys2Proof

/-! ### Decoding the word of an instruction (R81, R90) -/

/-- Settles O3: the fields of an encoded word are the operands it was made from, whichever of the three formats it has, and
the category and the selector lead the decoder to the instruction again. -/
theorem decodeOfEncodeIsTheInstruction : Obligations.DecodeOfEncodeIsTheInstruction := by
  intro i hwf
  cases i with
  | cls | ret => rfl
  | jp nnn | call nnn | ldI nnn | jpV0 nnn => simp [encode, decode, fieldC_encA, fieldNNN_encA]
  | seByte x kk | sneByte x kk | ldByte x kk | addByte x kk | rnd x kk =>
    simp [encode, decode, fieldC_encXK, fieldX_encXK, fieldKK_encXK]
  | seReg x y | sneReg x y => simp [encode, decode, fieldC_ofNibbles, fieldX_ofNibbles, fieldY_ofNibbles, fieldN_ofNibbles]
  | ldReg x y | orReg x y | andReg x y | xorReg x y | addReg x y | subReg x y | shr x y | subnReg x y | shl x y =>
    simp [encode, decode, decode8, fieldC_ofNibbles, fieldX_ofNibbles, fieldY_ofNibbles, fieldN_ofNibbles]
  | drw x y n =>
    have hn : n < 16 := Nat.lt_succ_of_le (of_decide_eq_true hwf)
    simp [encode, decode, fieldC_ofNibbles, fieldX_ofNibbles, fieldY_ofNibbles, fieldN_ofNibbles, hn, Nat.mod_eq_of_lt]
  | skp x | sknp x => simp [encode, decode, decodeE, fieldC_encXK, fieldX_encXK, fieldKK_encXK]
  | ldVxDt x | ldVxK x | ldDtVx x | ldStVx x | addI x | ldF x | ldB x | storeRegs x | loadRegs x =>
    simp [encode, decode, decodeF, fieldC_encXK, fieldX_encXK, fieldKK_encXK]

/-- Settles O4: what each level of the decoder answers is put together again from the fields it read. -/
theorem encodeOfDecodeIsTheWord : Obligations.EncodeOfDecodeIsTheWord := fun _ _ h =>
  (wf_encode_of_decode h).symm

/-- Settles O6: a word decodes to the pattern of every row it matches, and no two rows have one pattern. -/
theorem atMostOneRowMatches : Obligations.AtMostOneRowMatches := by
  intro r hr r' hr' w h h'
  have hpattern : (.ok r.pattern : Except DecodeError String) = .ok r'.pattern :=
    (decode_pattern_of_matches hr h).symm.trans (decode_pattern_of_matches hr' h')
  exact opcodeMap_pattern_injective r hr r' hr' (Except.ok.inj hpattern)

/-! ### The words that are no instruction (R92) -/

theorem decode0_error_iff (nnn : Addr12) :
    (∃ e, decode0 nnn = .error e) ↔ nnn.toNat ≠ 0x0E0 ∧ nnn.toNat ≠ 0x0EE := by
  unfold decode0
  split
  · subst nnn; simp
  · split
    · subst nnn; simp
    · simp_all [BitVec.toNat_eq]

theorem decode8_error_iff (x y : RegIdx) (n : BitVec 4) :
    (∃ e, decode8 x y n = .error e) ↔ n.toNat = 0x8 ∨ n.toNat = 0x9 ∨ n.toNat = 0xA ∨ n.toNat = 0xB ∨ n.toNat = 0xC ∨
      n.toNat = 0xD ∨ n.toNat = 0xF := by
  unfold decode8
  split
  case h_10 =>
    have := n.isLt
    simp only [imp_false] at *
    simp only [Except.error.injEq, exists_eq', true_iff]
    omega
  all_goals simp_all

theorem decodeE_error_iff (x : RegIdx) (kk : Byte) :
    (∃ e, decodeE x kk = .error e) ↔ kk.toNat ≠ 0x9E ∧ kk.toNat ≠ 0xA1 := by
  unfold decodeE
  split <;> simp_all

theorem decodeF_error_iff (x : RegIdx) (kk : Byte) :
    (∃ e, decodeF x kk = .error e) ↔ kk.toNat ≠ 0x07 ∧ kk.toNat ≠ 0x0A ∧ kk.toNat ≠ 0x15 ∧ kk.toNat ≠ 0x18 ∧
      kk.toNat ≠ 0x1E ∧ kk.toNat ≠ 0x29 ∧ kk.toNat ≠ 0x33 ∧ kk.toNat ≠ 0x55 ∧ kk.toNat ≠ 0x65 := by
  unfold decodeF
  split <;> simp_all

/-- Categories 5 and 9 refuse a word exactly when n is not 0 (R89). -/
theorem error_if_zero_iff (n : BitVec 4) (i : Instr) (e : DecodeError) :
    (∃ e', (if n = 0 then .ok i else .error e : Except DecodeError Instr) = .error e') ↔ n.toNat ≠ 0 := by
  split <;> simp_all [BitVec.toNat_eq]

/-- Settles O7: each category refuses exactly the selectors of its own row of the table of illegal words. -/
theorem illegalWordsByCategory : Obligations.IllegalWordsByCategory := by
  intro w
  simp only [← fieldC_toNat w, ← fieldN_toNat w, ← fieldKK_toNat w, ← fieldNNN_toNat w]
  unfold decode
  split
  case h_1 hc => simp [hc, decode0_error_iff]
  case h_6 hc | h_10 hc => simp only [error_if_zero_iff]; simp [hc]
  case h_9 hc => simp [hc, decode8_error_iff]
  case h_15 hc => simp [hc, decodeE_error_iff]
  case h_16 =>
    have hF : (fieldC w).toNat = 0xF := by have := (fieldC w).isLt; simp only [imp_false] at *; omega
    simp [hF, decodeF_error_iff]
  all_goals simp_all

/-- Settles O1: each word is decoded by evaluation. -/
theorem specVectorWordsDecode : Obligations.SpecVectorWordsDecode := by
  unfold Obligations.SpecVectorWordsDecode
  decide

end Sys2Proof
end

section
/-! What each named operation leaves unchanged, and what the instructions with more than one outcome can answer. -/

namespace Sys2Proof.Machine

/-! ### Frames of the named operations -/

theorem Frame.mono {V W : Part → Prop} {s t : State} (h : Frame V s t) (hVW : ∀ p, V p → W p) : Frame W s t :=
  fun p hp => h p fun hV => hp (hVW p hV)

theorem frame_setDt (s : State) (b : Byte) : Frame (· = .delay) s (s.setDt b) := by
  intro p hp
  cases p
  case delay => exact absurd rfl hp
  all_goals rfl

theorem frame_setSt (s : State) (b : Byte) : Frame (· = .sound) s (s.setSt b) := by
  intro p hp
  cases p
  case sound => exact absurd rfl hp
  all_goals rfl

theorem frame_drawn (s : State) : Frame (· = .draws) s s.drawn := by
  intro p hp
  cases p
  case draws => exact absurd rfl hp
  all_goals rfl

theorem frame_setKeys (s : State) (k : Keys) : Frame (fun p => ∃ j, p = .key j) s (s.setKeys k) := by
  intro p hp
  cases p
  case key j => exact absurd ⟨j, rfl⟩ hp
  all_goals rfl

/-- A write of memory is seen at most at the addresses W where the new memory reads differently. -/
theorem frame_setMem {s : State} {m : Memory} {W : Nat → Prop} (h : ∀ a, ¬ W a → m.read a = s.mem.read a) :
    Frame (fun p => ∃ a, W a ∧ p = .byte a) s (s.setMem m) := by
  intro p hp
  cases p
  case byte a => exact h a fun ha => hp ⟨a, ha, rfl⟩
  all_goals rfl

/-- A write of the register file is seen at most in the registers W that it gives another value. -/
theorem frame_setRegs {s : State} {v : Regs} {W : RegIdx → Prop} (h : ∀ r : RegIdx, ¬ W r → v[r] = s.reg r) :
    Frame (fun p => ∃ r, W r ∧ p = .reg r) s { s with v := v } := by
  intro p hp
  cases p
  case reg r => exact h r fun hr => hp ⟨r, hr, rfl⟩
  all_goals rfl

theorem frame_push (s : State) (w : Word) (h : s.sp.toNat < 16) :
    Frame (fun p => p = .entry ⟨s.sp.toNat, h⟩ ∨ p = .sp) s (s.push w h) := by
  intro p hp
  obtain ⟨hentry, hsp⟩ := not_or.1 hp
  cases p
  case sp => exact absurd rfl hsp
  case entry j =>
    have hj : s.sp.toNat ≠ j.val := fun hj => hentry (congrArg Part.entry (Fin.ext hj.symm))
    exact Vector.getElem_set_ne h j.isLt hj
  all_goals rfl

theorem frame_pop (s : State) (h : s.sp.toNat - 1 < 16) : Frame (fun p => p = .sp ∨ p = .pc) s (s.pop h) := by
  intro p hp
  obtain ⟨hsp, hpc⟩ := not_or.1 hp
  cases p
  case sp => exact absurd rfl hsp
  case pc => exact absurd rfl hpc
  all_goals rfl

theorem frame_raise (s : State) (i : Instr) (k : FaultKind) (d : Option Nat) :
    Frame (fun p => p = .pc ∨ p = .phase ∨ p = .fault) s (s.raise i k d) := by
  intro p hp
  obtain ⟨hpc, hphase, hfault⟩ : p ≠ .pc ∧ p ≠ .phase ∧ p ≠ .fault := by simpa [not_or] using hp
  cases p
  case pc => exact absurd rfl hpc
  case phase => exact absurd rfl hphase
  case fault => exact absurd rfl hfault
  all_goals rfl

/-- An instruction that answers a raised fault takes it as R232 says. -/
theorem faults_of_exec_eq_raise {i : Instr} {s : State} {k : FaultKind} {d : Option Nat}
    (h : exec i s = .next (s.raise i k d)) : Faults i k d s :=
  ⟨_, h, rfl, rfl, rfl, frame_raise s i k d⟩

/-! ### Instructions with more than one outcome -/

theorem exec_ret_of_zero {s : State} (h : s.sp = 0) : exec .ret s = .next (s.raise .ret .stackUnderflow none) :=
  if_pos h

theorem exec_ret_of_le {s : State} (h0 : s.sp ≠ 0) (h : s.sp.toNat - 1 < 16) : exec .ret s = .next (s.pop h) :=
  (if_neg h0).trans (dif_pos h)

theorem exec_call_of_full {s : State} (nnn : Addr12) (h : s.sp = 16) :
    exec (.call nnn) s = .next (s.raise (.call nnn) .stackOverflow none) := if_pos h

theorem exec_call_of_lt {s : State} (nnn : Addr12) (h : s.sp.toNat < 16) :
    exec (.call nnn) s = .next ((s.push s.pc h).setPc (zextAddr nnn)) := by
  have hne : s.sp ≠ 16 := fun he => absurd h (by rw [he]; decide)
  exact (if_neg hne).trans (dif_pos h)

/-- 00EE underflows or pops. -/
theorem exec_ret_cases {s t : State} (h : exec .ret s = .next t) :
    (s.sp = 0 ∧ t = s.raise .ret .stackUnderflow none) ∨ s.sp ≠ 0 ∧ ∃ hlt, t = s.pop hlt := by
  simp only [exec, execRet] at h
  split at h
  case isTrue h0 => cases h; exact .inl ⟨h0, rfl⟩
  case isFalse h0 =>
    split at h <;> cases h
    exact .inr ⟨h0, _, rfl⟩

/-- 2nnn overflows or pushes and jumps. -/
theorem exec_call_cases {s t : State} {nnn : Addr12} (h : exec (.call nnn) s = .next t) :
    (s.sp = 16 ∧ t = s.raise (.call nnn) .stackOverflow none) ∨ ∃ hlt, t = (s.push s.pc hlt).setPc (zextAddr nnn) := by
  simp only [exec, execCall] at h
  split at h
  case isTrue hfull => cases h; exact .inl ⟨hfull, rfl⟩
  case isFalse =>
    split at h <;> cases h
    exact .inr ⟨_, rfl⟩

theorem exec_skp_of_key {s : State} {x : RegIdx} {k : Fin 16} (h : s.keyOf x = some k) :
    exec (.skp x) s = .next (s.skipIf (s.key k)) := by simp only [exec, execSkp, h]

theorem exec_sknp_of_key {s : State} {x : RegIdx} {k : Fin 16} (h : s.keyOf x = some k) :
    exec (.sknp x) s = .next (s.skipIf (!s.key k)) := by simp only [exec, execSknp, h]

theorem exec_skp_of_none {s : State} {x : RegIdx} (h : s.keyOf x = none) :
    exec (.skp x) s = .next (s.raise (.skp x) .keyIndex (some (s.reg x).toNat)) := by simp only [exec, execSkp, h]

theorem exec_sknp_of_none {s : State} {x : RegIdx} (h : s.keyOf x = none) :
    exec (.sknp x) s = .next (s.raise (.sknp x) .keyIndex (some (s.reg x).toNat)) := by simp only [exec, execSknp, h]

/-- Fx0A with no key pressed writes PC back. -/
theorem exec_ldVxK_of_none {s : State} (x : RegIdx) (h : s.pressed = []) :
    exec (.ldVxK x) s = .next (s.setPc (s.pc - 2)) := by simp only [exec, execLdVxK, h]

/-- Fx0A with a key pressed writes the index of the key chosen, and draws. -/
theorem exec_ldVxK_of_cons {s : State} (x : RegIdx) {k : Fin 16} {ks : List (Fin 16)} (h : s.pressed = k :: ks) :
    exec (.ldVxK x) s = .next (s.setReg x (keyByte (chooseKey s.draws k ks))).drawn := by
  simp only [exec, execLdVxK, h]

/-- The key chosen is a pressed one, whichever it is. -/
theorem exec_ldVxK_of_pressed {s : State} (x : RegIdx) (h : s.pressed ≠ []) :
    ∃ k, s.key k = true ∧ exec (.ldVxK x) s = .next (s.setReg x (keyByte k)).drawn := by
  obtain ⟨k, ks, hp⟩ := List.exists_cons_of_ne_nil h
  exact ⟨chooseKey s.draws k ks, State.mem_pressed.1 (hp ▸ chooseKey_mem s.draws k ks), exec_ldVxK_of_cons x hp⟩

/-- Ex9E raises KeyIndex or skips on the level of the key that V[x] names. -/
theorem exec_skp_cases {s t : State} {x : RegIdx} (h : exec (.skp x) s = .next t) :
    (∃ d, t = s.raise (.skp x) .keyIndex d) ∨ ∃ k, s.keyOf x = some k ∧ t = s.skipIf (s.key k) := by
  cases hk : s.keyOf x with
  | none => rw [exec_skp_of_none hk] at h; cases h; exact .inl ⟨_, rfl⟩
  | some k => rw [exec_skp_of_key hk] at h; cases h; exact .inr ⟨k, rfl, rfl⟩

/-- ExA1 raises KeyIndex or skips on the level of the key that V[x] names. -/
theorem exec_sknp_cases {s t : State} {x : RegIdx} (h : exec (.sknp x) s = .next t) :
    (∃ d, t = s.raise (.sknp x) .keyIndex d) ∨ ∃ k, s.keyOf x = some k ∧ t = s.skipIf (!s.key k) := by
  cases hk : s.keyOf x with
  | none => rw [exec_sknp_of_none hk] at h; cases h; exact .inl ⟨_, rfl⟩
  | some k => rw [exec_sknp_of_key hk] at h; cases h; exact .inr ⟨k, rfl, rfl⟩

/-- Fx0A waits with no key pressed, else it writes the index of a pressed key and draws. -/
theorem exec_ldVxK_cases {s t : State} {x : RegIdx} (h : exec (.ldVxK x) s = .next t) :
    (s.pressed = [] ∧ t = s.setPc (s.pc - 2)) ∨ s.pressed ≠ [] ∧ ∃ k, t = (s.setReg x (keyByte k)).drawn := by
  by_cases hp : s.pressed = []
  · rw [exec_ldVxK_of_none x hp] at h
    exact .inl ⟨hp, (Host.Outcome.next.inj h).symm⟩
  · obtain ⟨k, -, hexec⟩ := exec_ldVxK_of_pressed x hp
    rw [hexec] at h
    exact .inr ⟨hp, k, (Host.Outcome.next.inj h).symm⟩

end Sys2Proof.Machine
end

section
/-! Calls, returns and the indexed jump (40_control_flow.md R121, R123, R128). -/

namespace Sys2Proof.Machine

/-- A SP that has an entry below it goes down by 1 as a number. -/
theorem sp_sub_one_toNat {sp : Byte} (h : sp ≠ 0) : (sp - 1).toNat = sp.toNat - 1 := by
  have h0 : sp.toNat ≠ 0 := fun h0 => h (BitVec.eq_of_toNat_eq h0)
  have := sp.isLt
  rw [BitVec.toNat_sub_of_le (by simp [BitVec.le_def]; omega)]
  rfl

/-- A SP that names an entry goes up by 1 as a number. -/
theorem sp_add_one_toNat {sp : Byte} (h : sp.toNat < 16) : (sp + 1).toNat = sp.toNat + 1 := by
  rw [BitVec.toNat_add]
  exact Nat.mod_eq_of_lt (by simp; omega)

/-- Settles O40: with an entry below SP, 00EE is one pop; with SP = 0 it raises StackUnderflow. -/
theorem returnPopsTheStack : Obligations.ReturnPopsTheStack := by
  refine fun s => ⟨fun j hj => ?pops, fun h0 => faults_of_exec_eq_raise (exec_ret_of_zero h0)⟩
  case pops =>
    have h0 : s.sp ≠ 0 := fun h0 => by simp [h0] at hj
    have hlt : s.sp.toNat - 1 < 16 := by omega
    refine ⟨s.pop hlt, exec_ret_of_le h0 hlt, ?sp, ?pc, frame_pop s hlt⟩
    case sp => rw [State.pop_sp, sp_sub_one_toNat h0, hj, Nat.add_sub_cancel]
    case pc => simp only [State.pop_pc, hj, Nat.add_sub_cancel, Fin.getElem_fin]

/-- Settles O42: with a free entry at SP, 2nnn is one push and one write of PC; with SP = 16 it raises StackOverflow. -/
theorem callPushesTheReturnAddress : Obligations.CallPushesTheReturnAddress := by
  refine fun s nnn => ⟨fun j hj => ?pushes, fun hfull => faults_of_exec_eq_raise (exec_call_of_full nnn hfull)⟩
  case pushes =>
    have hlt : s.sp.toNat < 16 := hj ▸ j.isLt
    obtain rfl : (⟨s.sp.toNat, hlt⟩ : Fin 16) = j := Fin.ext hj
    refine ⟨_, exec_call_of_lt nnn hlt, ?entry, sp_add_one_toNat hlt, zextAddr_toNat nnn, ?frame⟩
    case entry => exact Vector.getElem_set_self hlt
    case frame =>
      refine ((frame_push s s.pc hlt).trans (frame_setPc _ _)).mono fun p hp => ?_
      exact or_assoc.1 hp

/-- Settles O35: the entry at the old SP is a live one after the call, so whatever keeps the live entries keeps the return
address, and the pop reads it. -/
theorem callThenReturnComesBack : Obligations.CallThenReturnComesBack := by
  intro s nnn hlt
  refine ⟨_, exec_call_of_lt nnn hlt, fun u husp hlive => ?_⟩
  have hsp : u.sp.toNat = s.sp.toNat + 1 := husp ▸ sp_add_one_toNat hlt
  have h0 : u.sp ≠ 0 := fun h0 => by simp [h0] at hsp
  have hu : u.sp.toNat - 1 < 16 := by omega
  refine ⟨u.pop hu, exec_ret_of_le h0 hu, ?pc, ?sp⟩
  case pc =>
    have hentry : u.stack[s.sp.toNat] = s.pc := by
      have hkept := hlive ⟨s.sp.toNat, hlt⟩ (husp ▸ hsp ▸ Nat.lt_succ_self _)
      exact hkept.trans (Vector.getElem_set_self hlt)
    simpa only [State.pop_pc, hsp, Nat.add_sub_cancel] using hentry
  case sp =>
    apply BitVec.eq_of_toNat_eq
    rw [State.pop_sp, sp_sub_one_toNat h0, hsp, Nat.add_sub_cancel]

/-- nnn + V[0] is at most 0x10FE, so the sum in 16 bits is the sum (R128). -/
theorem zextAddr_add_zextByte_toNat (a : Addr12) (b : Byte) : (zextAddr a + zextByte b).toNat = a.toNat + b.toNat := by
  have := a.isLt
  have := b.isLt
  rw [BitVec.toNat_add, zextAddr_toNat, zextByte, BitVec.toNat_setWidth_of_le (by decide)]
  omega

/-- Settles O44: Bnnn is one write of PC, with a sum that does not wrap. -/
theorem indexedJumpAddsV0 : Obligations.IndexedJumpAddsV0 := fun s nnn =>
  ⟨s.setPc (zextAddr nnn + s.regWord 0), rfl, zextAddr_add_zextByte_toNat nnn (s.reg 0), frame_setPc s _⟩

end Sys2Proof.Machine
end

section
/-! The instructions that write VF first (41_alu.md R151 to R154), the forms of R156 under the parameter, and Cxkk (R155). -/

namespace Sys2Proof.Machine

/-- An instruction that writes a flag to VF and then a value to V[x]: the value stands in V[x], also for x = F, and the flag in
VF for every other x. -/
theorem writes_flag_then_value {i : Instr} {s : State} {x : RegIdx} {flag value : Byte} {f v : Nat}
    (h : exec i s = .next ((s.setVF flag).setReg x value)) (hvalue : value.toNat = v) (hflag : flag.toNat = f) :
    ∃ t, exec i s = .next t ∧ (t.reg x).toNat = v ∧ (x ≠ 15 → (t.reg 15).toNat = f) ∧
      Frame (fun p => p = .reg x ∨ p = .reg 15) s t := by
  refine ⟨_, h, ?value, fun hx => ?flag, ?frame⟩
  case value => rw [State.reg_setReg_self, hvalue]
  case flag => rw [State.reg_setReg_of_ne _ _ hx, State.setVF_eq, State.reg_setReg_self, hflag]
  case frame => exact ((frame_setReg s 15 flag).trans (frame_setReg _ x value)).mono fun _ => Or.symm

/-- The difference of two bytes as a number modulo 256. -/
theorem sub_toNat_mod (p q : Byte) : (p - q).toNat = (p.toNat + 256 - q.toNat) % 256 := by
  have := q.isLt
  rw [BitVec.toNat_sub]
  omega

theorem lowBitFlag_toNat (p : Byte) : (lowBitFlag p).toNat = p.toNat % 2 := by
  rw [lowBitFlag, BitVec.toNat_and]
  exact Nat.and_one_is_mod _

theorem highBitFlag_toNat (p : Byte) : (highBitFlag p).toNat = p.toNat / 128 := by
  rw [highBitFlag, BitVec.toNat_ushiftRight, Nat.shiftRight_eq_div_pow]

theorem ushiftRight_one_toNat (p : Byte) : (p >>> 1).toNat = p.toNat / 2 := by
  rw [BitVec.toNat_ushiftRight, Nat.shiftRight_eq_div_pow, Nat.pow_one]

theorem shiftLeft_one_toNat (p : Byte) : (p <<< 1).toNat = p.toNat * 2 % 256 := by
  rw [BitVec.toNat_shiftLeft, Nat.shiftLeft_eq, Nat.pow_one]

/-- Settles O47: each subtraction writes the strict-greater flag and then the difference. -/
theorem subtractionsAndTheirFlag : Obligations.SubtractionsAndTheirFlag := fun _ _ _ =>
  ⟨writes_flag_then_value rfl (sub_toNat_mod _ _) (flagByte_decide_toNat _),
   writes_flag_then_value rfl (sub_toNat_mod _ _) (flagByte_decide_toNat _)⟩

/-- Settles O48: each shift writes the bit shifted out and then the shifted value. -/
theorem shiftsMoveOneBitOut : Obligations.ShiftsMoveOneBitOut := fun _ _ _ =>
  ⟨writes_flag_then_value rfl (ushiftRight_one_toNat _) (lowBitFlag_toNat _),
   writes_flag_then_value rfl (shiftLeft_one_toNat _) (highBitFlag_toNat _)⟩

/-- In a block built with the parameter true a form that reads or writes VF beside its flag is refused. -/
theorem unlessAliased_true (t : State) : unlessAliased true true t = .refused .vfAlias := rfl

/-- A form that does not answers its next state, whatever the parameter is. -/
theorem unlessAliased_of_not {b : Bool} (hb : b = false) (aliasFault : Bool) (t : State) :
    unlessAliased aliasFault b t = .next t := by
  rw [hb, unlessAliased, Bool.and_false, if_neg Bool.false_ne_true]

theorem aliasesVF2_eq_true {x y : RegIdx} : aliasesVF2 x y = true ↔ x = 15 ∨ y = 15 := by simp [aliasesVF2]

theorem aliasesVF1_eq_true {x : RegIdx} : aliasesVF1 x = true ↔ x = 15 := by simp [aliasesVF1]

/-- Settles O49: whether a form is refused rests on the parameter and its operands alone, and what it answers otherwise does
not rest on the parameter. -/
theorem aliasedFormsRefusedUnderTheParameter : Obligations.AliasedFormsRefusedUnderTheParameter := by
  refine fun s x y => ⟨fun h => ?refused2, fun h => ?refused1, fun hx hy => ?same2, fun hx => ?same1⟩
  case refused2 =>
    have ha := aliasesVF2_eq_true.2 h
    simp only [subRegWith, subnRegWith, ha, unlessAliased_true, and_self]
  case refused1 =>
    have ha := aliasesVF1_eq_true.2 h
    simp only [shrWith, shlWith, ha, unlessAliased_true, and_self]
  case same2 =>
    have ha : aliasesVF2 x y = false := Bool.eq_false_iff.2 fun h => not_or.2 ⟨hx, hy⟩ (aliasesVF2_eq_true.1 h)
    exact ⟨unlessAliased_of_not ha true _, unlessAliased_of_not ha true _⟩
  case same1 =>
    have ha : aliasesVF1 x = false := Bool.eq_false_iff.2 fun h => hx (aliasesVF1_eq_true.1 h)
    exact ⟨unlessAliased_of_not ha true _, unlessAliased_of_not ha true _⟩

/-- Settles O50: Cxkk is one write of V[x], with the free byte masked, and one step of the counter of draws. -/
theorem randomByteIsMasked : Obligations.RandomByteIsMasked := fun s x _ =>
  ⟨_, rfl, s.reg_setReg_self x _, (frame_setReg s x _).trans (frame_drawn _)⟩

end Sys2Proof.Machine
end

section
/-! The index register's arithmetic and the indexed accesses (42_index_memory.md R171 to R176, 20_memory.md R64). -/

namespace Sys2Proof.Machine

theorem regWord_toNat (s : State) (x : RegIdx) : (s.regWord x).toNat = (s.reg x).toNat :=
  BitVec.toNat_setWidth_of_le (by decide)

/-- Settles O52: each is one write of I; the first sum is taken in 16 bits, and 5 times a byte does not reach 65536. -/
theorem indexArithmetic : Obligations.IndexArithmetic := by
  refine fun s x => ⟨⟨_, rfl, ?sum, frame_setI s _⟩, ⟨_, rfl, ?product, frame_setI s _⟩⟩
  case sum => rw [State.setI_i, BitVec.toNat_add, regWord_toNat]
  case product =>
    have := (s.reg x).isLt
    rw [State.setI_i, BitVec.toNat_mul, regWord_toNat]
    exact Nat.mod_eq_of_lt (by simp; omega)

/-! ### Stores -/

theorem exec_ldB_inRange {s : State} (x : RegIdx) (h : s.i.toNat + 2 ≤ 0xFFF) :
    exec (.ldB x) s = .next (s.setMem (s.mem.writeBytes s.i.toNat (decimalDigits (s.reg x)))) :=
  State.checked_inRange _ (.inr (by omega))

theorem exec_storeRegs_inRange {s : State} (x : RegIdx) (h : s.i.toNat + x.val ≤ 0xFFF) :
    exec (.storeRegs x) s = .next (s.setMem (storeFirst s.v s.i.toNat (x.val + 1) s.mem)) :=
  State.checked_inRange _ (.inr (by simp only [regCount]; omega))

theorem exec_loadRegs_inRange {s : State} (x : RegIdx) (h : s.i.toNat + x.val ≤ 0xFFF) :
    exec (.loadRegs x) s = .next { s with v := loadFirst s.mem s.i.toNat (x.val + 1) s.v } :=
  State.checked_inRange _ (.inr (by simp only [regCount]; omega))

/-- Each decimal digit as a number (R173). -/
theorem decimalDigits_toNat (b : Byte) :
    (b / 100).toNat = b.toNat / 100 ∧ ((b / 10) % 10).toNat = b.toNat / 10 % 10 ∧ (b % 10).toNat = b.toNat % 10 := by
  simp [BitVec.toNat_udiv, BitVec.toNat_umod]

/-- Fx33 changes no byte but the three from I on. -/
theorem frame_ldB (s : State) (x : RegIdx) :
    Frame (fun p => ∃ a, (s.i.toNat ≤ a ∧ a < s.i.toNat + 3) ∧ p = .byte a) s
      (s.setMem (s.mem.writeBytes s.i.toNat (decimalDigits (s.reg x)))) := by
  refine frame_setMem fun a ha => Memory.read_writeBytes_other ?_
  simp only [decimalDigits, List.length_cons, List.length_nil]
  omega

/-- Fx55 changes no byte but those from I to I + x. -/
theorem frame_storeRegs (s : State) (x : RegIdx) :
    Frame (fun p => ∃ a, (s.i.toNat ≤ a ∧ a ≤ s.i.toNat + x.val) ∧ p = .byte a) s
      (s.setMem (storeFirst s.v s.i.toNat (x.val + 1) s.mem)) :=
  frame_setMem fun _ ha => read_storeFirst_other s.v s.mem (by omega)

/-- Fx65 changes no register but V[0] to V[x]. -/
theorem frame_loadRegs (s : State) (x : RegIdx) :
    Frame (fun p => ∃ r, r ≤ x ∧ p = .reg r) s { s with v := loadFirst s.mem s.i.toNat (x.val + 1) s.v } := by
  refine frame_setRegs fun r hr => ?_
  have hlt : ¬ r.val < x.val + 1 := fun h => hr (Fin.le_def.2 (Nat.le_of_lt_succ h))
  exact (getElem_loadFirst s.mem s.i.toNat s.v r.val r.isLt x.isLt).trans (if_neg hlt)

/-- Settles O53: the three digits are written consecutively from I over a canonical memory, inside the address space, so each
reads back and no other byte changes. -/
theorem decimalDigitsAreStored : Obligations.DecimalDigitsAreStored := by
  intro s x hwf hrange
  have hread := Memory.read_writeBytes (bs := decimalDigits (s.reg x)) (a := s.i.toNat) hwf
    (show s.i.toNat + 3 ≤ Config.memSize from Nat.succ_le_succ hrange)
  obtain ⟨hundreds, tens, units⟩ := decimalDigits_toNat (s.reg x)
  refine ⟨_, exec_ldB_inRange x hrange, ?hundreds, ?tens, ?units, (frame_ldB s x).mono ?window⟩
  case hundreds => exact (congrArg BitVec.toNat (hread 0 (show 0 < 3 by decide))).trans hundreds
  case tens => exact (congrArg BitVec.toNat (hread 1 (show 1 < 3 by decide))).trans tens
  case units => exact (congrArg BitVec.toNat (hread 2 (show 2 < 3 by decide))).trans units
  case window =>
    rintro p ⟨a, ha, rfl⟩
    simp only [Part.byte.injEq]
    omega

/-- After Fx55 over a canonical memory the byte at I + j is V[j], for every j up to x. -/
theorem read_storeRegs {s : State} {x j : RegIdx} (hwf : s.mem.wf = true) (hrange : s.i.toNat + x.val ≤ 0xFFF)
    (hj : j ≤ x) : (storeFirst s.v s.i.toNat (x.val + 1) s.mem).read (s.i.toNat + j.val) = s.reg j :=
  read_storeFirst s.v hwf x.isLt (by simp only [Config.memSize]; omega) j.val j.isLt (Nat.lt_succ_of_le hj)

/-- Settles O54: the registers are written consecutively from I over a canonical memory, inside the address space. -/
theorem registersAreStored : Obligations.RegistersAreStored := by
  intro s x hwf hrange
  refine ⟨_, exec_storeRegs_inRange x hrange, fun j hj => read_storeRegs hwf hrange hj, (frame_storeRegs s x).mono ?window⟩
  case window =>
    rintro p ⟨a, ⟨hlo, hhi⟩, rfl⟩
    exact ⟨⟨a - s.i.toNat, by omega⟩, Fin.le_def.2 (by simp only; omega), congrArg Part.byte (by simp only; omega)⟩

/-- Settles O36: a fetch reads memory alone, at two of the addresses that Fx55 wrote. -/
theorem storedBytesAreFetched : Obligations.StoredBytesAreFetched := by
  intro s x hwf hrange
  refine ⟨_, exec_storeRegs_inRange x hrange, fun j k u hk hkx hmem hpc => ?_⟩
  have hjx : j ≤ x := Fin.le_def.2 (by have := Fin.le_def.1 hkx; omega)
  have hk' : s.i.toNat + j.val + 1 = s.i.toNat + k.val := by omega
  rw [State.fetchWord, hpc, hmem, hk', State.setMem_mem, read_storeRegs hwf hrange hjx, read_storeRegs hwf hrange hkx]

/-- Settles O55: V[j] is loaded from I + j for every j up to x, and no other register is written. -/
theorem registersAreLoaded : Obligations.RegistersAreLoaded := by
  intro s x hrange
  refine ⟨_, exec_loadRegs_inRange x hrange, fun j hj => ?loaded, frame_loadRegs s x⟩
  case loaded =>
    have hlt : j.val < x.val + 1 := Nat.lt_succ_of_le hj
    exact (getElem_loadFirst s.mem s.i.toNat s.v j.val j.isLt x.isLt).trans (if_pos hlt)

/-- Settles O56: each of the four is one checked access, which raises MemoryBounds before it accesses anything. -/
theorem indexedAccessPastTheEndFaults : Obligations.IndexedAccessPastTheEndFaults := by
  refine fun s x y n => ⟨fun h => ?ldB, fun h => ?storeRegs, fun h => ?loadRegs, fun h0 hn h => ?drw⟩
  case ldB => exact faults_of_exec_eq_raise (State.checked_outOfRange _ (by decide) (by omega))
  case storeRegs | loadRegs =>
    exact faults_of_exec_eq_raise (State.checked_outOfRange _ (Nat.succ_ne_zero _) (by simp only [regCount]; omega))
  case drw => exact faults_of_exec_eq_raise (State.checked_outOfRange _ (Nat.pos_iff_ne_zero.1 h0) (by omega))

end Sys2Proof.Machine
end

section
/-! The keypad and the timers (44_keypad_timers.md R210 to R215). -/

namespace Sys2Proof.Machine

/-- Settles O57: when V[x] names a key each of the two is a skip on that key's level, else it raises KeyIndex. -/
theorem keySkips : Obligations.KeySkips := by
  refine fun s x => ⟨fun k hk => ?key, fun h => ?noKey⟩
  case key =>
    have hkey := State.keyOf_eq_some.2 hk
    refine ⟨skipsExactlyWhen_of_exec_eq_skipIf ?skp, skipsExactlyWhen_of_exec_eq_skipIf ?sknp⟩
    case skp => rw [exec_skp_of_key hkey, Bool.decide_eq_true]
    case sknp => rw [exec_sknp_of_key hkey, Bool.decide_eq_false]
  case noKey =>
    have hnone := State.keyOf_eq_none.2 h
    exact ⟨faults_of_exec_eq_raise (exec_skp_of_none hnone), faults_of_exec_eq_raise (exec_sknp_of_none hnone)⟩

/-- Settles O60: with no key pressed Fx0A writes PC back; else it writes the index of a key in the list of the pressed ones,
which is the only one when there is only one. -/
theorem waitForKey : Obligations.WaitForKey := by
  intro s x
  have hpressed {k : Fin 16} (hk : s.key k = true) : s.pressed ≠ [] := List.ne_nil_of_mem (State.mem_pressed.2 hk)
  refine ⟨fun hnone => ?none, fun ⟨k, hk⟩ => ?some, fun k hk honly => ?one⟩
  case none => exact ⟨_, exec_ldVxK_of_none x (State.pressed_eq_nil.2 hnone), rfl, frame_setPc s _⟩
  case some =>
    obtain ⟨k', hk', hexec⟩ := exec_ldVxK_of_pressed x (hpressed hk)
    refine ⟨_, k', hexec, hk', ?value, (frame_setReg s x _).trans (frame_drawn _)⟩
    rw [State.drawn_reg, State.reg_setReg_self, keyByte_toNat]
  case one =>
    obtain ⟨k', hk', hexec⟩ := exec_ldVxK_of_pressed x (hpressed hk)
    obtain rfl := honly k' hk'
    exact ⟨_, hexec, by rw [State.drawn_reg, State.reg_setReg_self, keyByte_toNat]⟩

theorem exec_ldDtVx (s : State) (x : RegIdx) : exec (.ldDtVx x) s = .next (s.setDt (s.reg x)) := rfl

theorem exec_ldStVx (s : State) (x : RegIdx) : exec (.ldStVx x) s = .next (s.setSt (s.reg x)) := rfl

/-- The sound flag is set exactly when ST is not 0. -/
theorem soundFlag_eq (s : State) : s.soundFlag = decide (0 < s.st.toNat) := by
  have h : s.st ≠ 0 ↔ 0 < s.st.toNat := by simp [BitVec.toNat_eq, Nat.pos_iff_ne_zero]
  rw [State.soundFlag, decide_eq_decide.2 h]

/-- Settles O59: each is one write of its timer with V[x], which the tick of the completed cycle then counts down. -/
theorem setTimers : Obligations.SetTimers := by
  refine fun s x => ⟨⟨_, exec_ldDtVx s x, rfl, frame_setDt s _⟩, ⟨_, exec_ldStVx s x, rfl, frame_setSt s _⟩,
    fun t ht => ?delay, fun t ht => ?sound⟩
  case delay => rw [ht.eq_completeCycle (exec_ldDtVx _ x), State.completeCycle_dt, tick_toNat]; rfl
  case sound =>
    have hst : t.st.toNat = (s.reg x).toNat - 1 := by
      rw [ht.eq_completeCycle (exec_ldStVx _ x), State.completeCycle_st, tick_toNat]; rfl
    refine ⟨hst, ?flag⟩
    rw [soundFlag_eq, hst, decide_eq_decide]
    exact Nat.sub_pos_iff_lt

end Sys2Proof.Machine
end

section
/-! What an instruction may change when it takes no fault, said once for all instructions (10_state.md R22 to R40), and the
tables of writers that follow from it. -/

namespace Sys2Proof.Machine

/-- The instructions that write PC beside the advance (10_state.md R25). -/
def writesPc : Instr → Bool
  | .ret | .jp _ | .call _ | .seByte _ _ | .sneByte _ _ | .seReg _ _ | .sneReg _ _ | .jpV0 _ | .skp _ | .sknp _
  | .ldVxK _ => true
  | _ => false

/-- The parts of the state that an instruction may change in execute when it takes no fault. -/
def MayWrite (s : State) (i : Instr) : Part → Prop
  | .byte a => storesTo s i a = true
  | .reg r => writesReg i r = true
  | .index => (∃ nnn, i = .ldI nnn) ∨ (∃ x, i = .addI x) ∨ ∃ x, i = .ldF x
  | .pc => writesPc i = true
  | .sp => i = .ret ∨ ∃ nnn, i = .call nnn
  | .entry _ => ∃ nnn, i = .call nnn
  | .delay => ∃ x, i = .ldDtVx x
  | .sound => ∃ x, i = .ldStVx x
  | .cell _ _ => i = .cls ∨ ∃ x y n, i = .drw x y n
  | .draws => (∃ x kk, i = .rnd x kk) ∨ ∃ x, i = .ldVxK x
  | .key _ | .phase | .fault | .loaded => False

/-! ### The frame of an instruction -/

/-- An instruction whose whole effect is one write of a register that the table gives it. -/
theorem frame_mayWrite_setReg {s : State} {i : Instr} {x : RegIdx} (b : Byte) (h : writesReg i x = true) :
    Frame (MayWrite s i) s (s.setReg x b) :=
  (frame_setReg s x b).mono fun _ hp => hp ▸ h

/-- An instruction whose whole effect is two writes of registers that the table gives it. -/
theorem frame_mayWrite_setReg_setReg {s : State} {i : Instr} {x y : RegIdx} (b c : Byte) (hx : writesReg i x = true)
    (hy : writesReg i y = true) : Frame (MayWrite s i) s ((s.setReg x b).setReg y c) :=
  ((frame_setReg s x b).trans (frame_setReg _ y c)).mono fun _ hp => hp.elim (· ▸ hx) (· ▸ hy)

/-- An instruction whose whole effect is one write of PC. -/
theorem frame_mayWrite_pc {s t : State} {i : Instr} (ht : Frame (· = .pc) s t) (h : writesPc i = true) :
    Frame (MayWrite s i) s t :=
  ht.mono fun _ hp => hp ▸ h

/-- A checked access faults, or keeps the frame that its next state keeps. -/
theorem frame_of_checked {s t u : State} {i : Instr} {len : Nat} (h : s.checked i len t = .next u)
    (ht : Frame (MayWrite s i) s t) : (∃ k d, u = s.raise i k d) ∨ Frame (MayWrite s i) s u := by
  obtain ⟨-, rfl⟩ | ⟨d, -, rfl⟩ := s.checked_cases h
  · exact .inr ht
  · exact .inl ⟨_, _, rfl⟩

/-- An instruction that answers a next state took a fault, or changed nothing but what it may write. -/
theorem exec_frame_cases {i : Instr} {s t : State} (h : exec i s = .next t) :
    (∃ k d, t = s.raise i k d) ∨ Frame (MayWrite s i) s t := by
  cases i with
  | ret =>
    obtain ⟨-, rfl⟩ | ⟨-, hlt, rfl⟩ := exec_ret_cases h
    · exact .inl ⟨_, _, rfl⟩
    · exact .inr ((frame_pop s hlt).mono fun p hp => by rcases hp with rfl | rfl; exacts [.inl rfl, rfl])
  | call nnn =>
    obtain ⟨-, rfl⟩ | ⟨hlt, rfl⟩ := exec_call_cases h
    · exact .inl ⟨_, _, rfl⟩
    · refine .inr (((frame_push s s.pc hlt).trans (frame_setPc _ _)).mono fun p hp => ?_)
      rcases hp with (rfl | rfl) | rfl
      exacts [⟨nnn, rfl⟩, .inr ⟨nnn, rfl⟩, rfl]
  | skp x =>
    obtain ⟨d, rfl⟩ | ⟨k, -, rfl⟩ := exec_skp_cases h
    · exact .inl ⟨_, _, rfl⟩
    · exact .inr (frame_mayWrite_pc (frame_skipIf s _) rfl)
  | sknp x =>
    obtain ⟨d, rfl⟩ | ⟨k, -, rfl⟩ := exec_sknp_cases h
    · exact .inl ⟨_, _, rfl⟩
    · exact .inr (frame_mayWrite_pc (frame_skipIf s _) rfl)
  | ldVxK x =>
    obtain ⟨-, rfl⟩ | ⟨-, k, rfl⟩ := exec_ldVxK_cases h
    · exact .inr (frame_mayWrite_pc (frame_setPc s _) rfl)
    · refine .inr (((frame_setReg s x _).trans (frame_drawn _)).mono fun p hp => ?_)
      rcases hp with rfl | rfl
      exacts [decide_eq_true rfl, .inr ⟨x, rfl⟩]
  | drw x y n =>
    refine frame_of_checked h (((frame_setDisplay s _).trans (frame_setReg _ 15 _)).mono fun p hp => ?_)
    rcases hp with ⟨c, r, rfl⟩ | rfl
    exacts [.inr ⟨x, y, n, rfl⟩, rfl]
  | ldB x =>
    refine frame_of_checked h ((frame_ldB s x).mono fun p hp => ?_)
    obtain ⟨a, ha, rfl⟩ := hp
    exact decide_eq_true ha
  | storeRegs x =>
    refine frame_of_checked h ((frame_storeRegs s x).mono fun p hp => ?_)
    obtain ⟨a, ha, rfl⟩ := hp
    exact decide_eq_true ha
  | loadRegs x =>
    refine frame_of_checked h ((frame_loadRegs s x).mono fun p hp => ?_)
    obtain ⟨r, hr, rfl⟩ := hp
    exact decide_eq_true hr
  | seByte | sneByte | seReg | sneReg => cases h; exact .inr (frame_mayWrite_pc (frame_skipIf s _) rfl)
  | jp | jpV0 => cases h; exact .inr (frame_mayWrite_pc (frame_setPc s _) rfl)
  | ldByte | addByte | ldReg | orReg | andReg | xorReg | ldVxDt =>
    cases h; exact .inr (frame_mayWrite_setReg _ (decide_eq_true rfl))
  | addReg | subReg | subnReg | shr | shl =>
    cases h; exact .inr (frame_mayWrite_setReg_setReg _ _ (by simp [writesReg]) (by simp [writesReg]))
  | rnd x kk =>
    cases h
    refine .inr (((frame_setReg s x _).trans (frame_drawn _)).mono fun p hp => ?_)
    rcases hp with rfl | rfl
    exacts [decide_eq_true rfl, .inl ⟨x, kk, rfl⟩]
  | cls => cases h; exact .inr ((frame_setDisplay s _).mono fun p ⟨c, r, hp⟩ => hp ▸ .inl rfl)
  | ldI nnn => cases h; exact .inr ((frame_setI s _).mono fun p hp => hp ▸ .inl ⟨nnn, rfl⟩)
  | addI x => cases h; exact .inr ((frame_setI s _).mono fun p hp => hp ▸ .inr (.inl ⟨x, rfl⟩))
  | ldF x => cases h; exact .inr ((frame_setI s _).mono fun p hp => hp ▸ .inr (.inr ⟨x, rfl⟩))
  | ldDtVx x => cases h; exact .inr ((frame_setDt s _).mono fun p hp => hp ▸ ⟨x, rfl⟩)
  | ldStVx x => cases h; exact .inr ((frame_setSt s _).mono fun p hp => hp ▸ ⟨x, rfl⟩)

/-- An instruction that ends in a block that is not halted changed nothing but what it may write. -/
theorem exec_frame {i : Instr} {s t : State} (h : exec i s = .next t) (ht : t.phase ≠ .halted) :
    Frame (MayWrite s i) s t := by
  obtain ⟨k, d, rfl⟩ | hframe := exec_frame_cases h
  · exact absurd rfl ht
  · exact hframe

/-! ### The frame of a completed cycle -/

theorem frame_completeCycle (s : State) :
    Frame (fun p => p = .delay ∨ p = .sound ∨ p = .phase) s s.completeCycle := by
  intro p hp
  obtain ⟨hdelay, hsound, hphase⟩ : p ≠ .delay ∧ p ≠ .sound ∧ p ≠ .phase := by simpa [not_or] using hp
  cases p
  case delay => exact absurd rfl hdelay
  case sound => exact absurd rfl hsound
  case phase => exact absurd rfl hphase
  all_goals rfl

/-- What a completed cycle executed, from the advanced state, with the frame of that instruction. -/
theorem Completes.exec_advance {i : Instr} {s t : State} (h : Completes i s t) :
    ∃ u, exec i s.advance = .next u ∧ u.phase ≠ .halted ∧ t = u.completeCycle := by
  obtain ⟨u, hexec, ⟨hphase, -⟩, rfl⟩ := h.exec_next
  exact ⟨u, hexec, hphase ▸ h.1, rfl⟩

/-- The cycle itself adds only the writes of PC, the timers and the phase to those of its instruction. -/
def CycleWrites (s : State) (i : Instr) (p : Part) : Prop :=
  MayWrite s i p ∨ p = .pc ∨ p = .delay ∨ p = .sound ∨ p = .phase

theorem Completes.frame {i : Instr} {s t : State} (h : Completes i s t) : Frame (CycleWrites s i) s t := by
  obtain ⟨u, hexec, hu, rfl⟩ := h.exec_advance
  have hinstr : Frame (MayWrite s i) s.advance u := exec_frame hexec hu
  refine (((frame_setPc s _).trans hinstr).trans (frame_completeCycle u)).mono fun p hp => ?_
  rcases hp with (hpc | hmay) | hcycle
  exacts [.inr (.inl hpc), .inl hmay, .inr (.inr hcycle)]

/-! ### The tables of writers -/

/-- Settles O26: a completed cycle writes no register but those the table gives its instruction. -/
theorem registersAreWrittenAsTheTableSays : Obligations.RegistersAreWrittenAsTheTableSays := by
  intro i s t r hcycle hr
  exact hcycle.frame (.reg r) (by simp [CycleWrites, MayWrite, hr])

/-- Settles O28: a completed cycle writes no byte but those its instruction stores to. -/
theorem onlyStoresChangeMemory : Obligations.OnlyStoresChangeMemory := by
  intro i s t a hcycle ha
  exact hcycle.frame (.byte a) (by simp [CycleWrites, MayWrite, ha])

/-- Settles O29: a display none of whose cells has changed is the same display; the keypad is part of the run status. -/
theorem displayAndKeypadWriters : Obligations.DisplayAndKeypadWriters := by
  refine fun i s t hcycle => ⟨fun hchanged => ?display, ?keys⟩
  case display =>
    by_contra hi
    exact hchanged (Display.ext_cell fun c r => hcycle.frame (.cell c r) (by simpa [CycleWrites, MayWrite] using hi))
  case keys =>
    obtain ⟨u, -, ⟨-, -, -, hkeys⟩, rfl⟩ := hcycle.exec_next
    exact hkeys

/-- Two stacks are equal when all their entries are. -/
theorem stack_ext {a b : Vector Word 16} (h : ∀ j : Fin 16, a[j] = b[j]) : a = b :=
  Vector.ext fun j hj => h ⟨j, hj⟩

/-- Settles O30: each of the three is the same when the cycle's frame does not name it. -/
theorem stackAndIndexWriters : Obligations.StackAndIndexWriters := by
  refine fun i s t hcycle => ⟨fun hchanged => ?stack, fun hchanged => ?sp, fun hchanged => ?index⟩
  case stack =>
    by_contra hi
    exact hchanged (stack_ext fun j => hcycle.frame (.entry j) (by simpa [CycleWrites, MayWrite] using hi))
  case sp =>
    by_contra hi
    exact hchanged (hcycle.frame .sp (by simpa [CycleWrites, MayWrite] using hi))
  case index =>
    by_contra hi
    exact hchanged (hcycle.frame .index (by simpa [CycleWrites, MayWrite] using hi))

/-! ### PC -/

/-- A skip from the advanced PC ends at a + 4 or a + 2, which do not wrap. -/
theorem skipIf_advance_pc_toNat {s : State} (hpc : s.pc.toNat ≤ 0xFFE) (c : Bool) :
    (s.advance.skipIf c).pc.toNat = if c then s.pc.toNat + 4 else s.pc.toNat + 2 := by
  rw [State.skipIf_pc, State.advance_pc]
  split <;> bv_omega

/-- The key that V[x] names is the one the table of skips reads. -/
theorem key_of_keyOf {s : State} {x : RegIdx} {k : Fin 16} (h : s.keyOf x = some k) :
    s.key (Fin.ofNat 16 (s.reg x).toNat) = s.key k := by
  rw [State.keyOf_eq_some.1 h, Fin.ofNat_eq_cast, Fin.cast_val_eq_self]

/-- PC after an instruction that ends in a block that is not halted, from the PC that the cycle advanced. -/
theorem exec_advance_pc {i : Instr} {s u : State} (hpc : s.pc.toNat ≤ 0xFFE) (h : exec i s.advance = .next u)
    (hu : u.phase ≠ .halted) : u.pc.toNat = pcAfter s i := by
  cases i with
  | ret =>
    obtain ⟨-, rfl⟩ | ⟨-, hlt, rfl⟩ := exec_ret_cases h
    · exact absurd rfl hu
    · have hidx : (Fin.ofNat 16 (s.sp.toNat - 1)).val = s.sp.toNat - 1 := Nat.mod_eq_of_lt hlt
      simp only [pcAfter, Fin.getElem_fin, hidx]
      rfl
  | call nnn =>
    obtain ⟨-, rfl⟩ | ⟨hlt, rfl⟩ := exec_call_cases h
    · exact absurd rfl hu
    · exact zextAddr_toNat nnn
  | jp nnn => cases h; exact zextAddr_toNat nnn
  | jpV0 nnn => cases h; exact zextAddr_add_zextByte_toNat nnn (s.reg 0)
  | seByte | sneByte | seReg | sneReg => cases h; exact skipIf_advance_pc_toNat hpc _
  | skp x =>
    obtain ⟨d, rfl⟩ | ⟨k, hk, rfl⟩ := exec_skp_cases h
    · exact absurd rfl hu
    · simp only [pcAfter, skips, key_of_keyOf (s := s) hk]
      exact skipIf_advance_pc_toNat hpc _
  | sknp x =>
    obtain ⟨d, rfl⟩ | ⟨k, hk, rfl⟩ := exec_sknp_cases h
    · exact absurd rfl hu
    · simp only [pcAfter, skips, key_of_keyOf (s := s) hk]
      exact skipIf_advance_pc_toNat hpc _
  | ldVxK x =>
    obtain ⟨hnone, rfl⟩ | ⟨hsome, k, rfl⟩ := exec_ldVxK_cases h
    · simp only [pcAfter, if_pos (State.pressed_eq_nil (s := s).1 hnone), State.setPc_pc, State.advance_pc, pc_add_sub]
    · simp only [pcAfter, if_neg (mt (State.pressed_eq_nil (s := s)).2 hsome)]
      exact skipIf_advance_pc_toNat hpc false
  | _ =>
    have hkept : u.pc = s.advance.pc := exec_frame h hu .pc (by simp [MayWrite, writesPc])
    rw [hkept]
    exact skipIf_advance_pc_toNat hpc false

/-- Settles O27: the tick leaves PC as the instruction left it. -/
theorem pcAfterEachInstruction : Obligations.PcAfterEachInstruction := by
  intro i s t hcycle
  obtain ⟨u, hexec, hu, rfl⟩ := hcycle.exec_advance
  obtain ⟨-, hpc, -⟩ := hcycle
  exact (exec_advance_pc hpc hexec hu :)

end Sys2Proof.Machine
end

section
/-! The cycle (30_encoding.md R95): what a step answers in each of its cases, that its faults are precise (60_exceptions.md
R231 to R233), and the park (70_reset_and_hazards.md section 5). -/

namespace Sys2Proof.Machine

/-! ### Every instruction answers -/

theorem State.checked_answers (s : State) (i : Instr) (len : Nat) (t : State) : ∃ u, s.checked i len t = .next u := by
  unfold State.checked
  split <;> exact ⟨_, rfl⟩

/-- An instruction answers a next state, but for 00EE and 2nnn with SP above 16, where the model stops (log 5). -/
theorem exec_answers (i : Instr) (s : State) :
    (∃ t, exec i s = .next t) ∨ 16 < s.sp.toNat ∧ exec i s = .fault .stackPointerIllegal := by
  cases i with
  | ret =>
    by_cases h0 : s.sp = 0
    · exact .inl ⟨_, exec_ret_of_zero h0⟩
    · by_cases hlt : s.sp.toNat - 1 < 16
      · exact .inl ⟨_, exec_ret_of_le h0 hlt⟩
      · exact .inr ⟨by omega, (if_neg h0).trans (dif_neg hlt)⟩
  | call nnn =>
    by_cases hfull : s.sp = 16
    · exact .inl ⟨_, exec_call_of_full nnn hfull⟩
    · by_cases hlt : s.sp.toNat < 16
      · exact .inl ⟨_, exec_call_of_lt nnn hlt⟩
      · exact .inr ⟨by bv_omega, (if_neg hfull).trans (dif_neg hlt)⟩
  | skp x =>
    cases hk : s.keyOf x with
    | none => exact .inl ⟨_, exec_skp_of_none hk⟩
    | some k => exact .inl ⟨_, exec_skp_of_key hk⟩
  | sknp x =>
    cases hk : s.keyOf x with
    | none => exact .inl ⟨_, exec_sknp_of_none hk⟩
    | some k => exact .inl ⟨_, exec_sknp_of_key hk⟩
  | ldVxK x =>
    by_cases hp : s.pressed = []
    · exact .inl ⟨_, exec_ldVxK_of_none x hp⟩
    · obtain ⟨k, -, hexec⟩ := exec_ldVxK_of_pressed x hp
      exact .inl ⟨_, hexec⟩
  | drw | ldB | storeRegs | loadRegs => exact .inl (State.checked_answers ..)
  | _ => exact .inl ⟨_, rfl⟩

/-- No instruction is refused (log 4). -/
theorem exec_ne_refused (i : Instr) (s : State) (r : Refusal) : exec i s ≠ .refused r := by
  obtain ⟨t, h⟩ | ⟨-, h⟩ := exec_answers i s <;> rw [h] <;> nofun

/-! ### What a step answers -/

/-- Settles O9: the first test of a cycle is on the phase. -/
theorem haltedBlockIgnoresCycles : Obligations.HaltedBlockIgnoresCycles := by
  intro s hs
  simp only [step, cycle, hs]

/-- Settles O10: from 0xFFF on one of the two bytes is above 0xFFF, and the lowest such address is the larger of PC and
0x1000. -/
theorem fetchPastTheEndFaults : Obligations.FetchPastTheEndFaults := by
  intro s hs hpc
  have hrange : outOfRange s.pc.toNat 2 = some (if s.pc.toNat = 0xFFF then 0x1000 else s.pc.toNat) :=
    outOfRange_eq_some.2 ⟨by decide, by omega, by split <;> omega⟩
  rw [step_of_not_halted hs]
  simp only [runCycle, hrange]
  rfl

/-- Settles O11: with the fetch in range the decoder's refusal is the fault. -/
theorem illegalWordFaults : Obligations.IllegalWordFaults := by
  intro s e hs hpc he
  have hrange : outOfRange s.pc.toNat 2 = none := outOfRange_eq_none.2 (.inr (by omega))
  rw [step_of_not_halted hs]
  simp only [runCycle, hrange, runWord, he]
  rfl

/-- The word fetched is the number that its two bytes make, high byte first (20_memory.md R65). -/
theorem fetchWord_eq_of_toNat {s : State} {w : Word}
    (h : w.toNat = (s.mem.read s.pc.toNat).toNat * 0x100 + (s.mem.read (s.pc.toNat + 1)).toNat) : s.fetchWord = w :=
  BitVec.eq_of_toNat_eq ((wordOfBytes_toNat _ _).trans h.symm)

/-- Completing the cycle of a block that is not halted ticks the timers and leaves phase Running. -/
theorem State.completeCycle_eq {s : State} (h : s.phase ≠ .halted) :
    s.completeCycle = { s with dt := tick s.dt, st := tick s.st, phase := .running } := by
  have hphase : (if s.phase = .reset then .running else s.phase) = Phase.running := by
    cases hp : s.phase
    case halted => exact absurd hp h
    all_goals rfl
  rw [State.completeCycle, hphase]

/-- Settles O8: the cycle adds to what execute answers exactly the tick and phase Running, when no fault was taken. -/
theorem stepRunsTheDecodedInstruction : Obligations.StepRunsTheDecodedInstruction := by
  intro s w i hs hpc hw hi
  have hstep := step_of_decode hs hpc ((congrArg decode (fetchWord_eq_of_toNat hw)).trans hi)
  refine ⟨fun t ht => ?next, fun r hr => ?fault, exec_ne_refused i _⟩
  case next =>
    rw [hstep, show exec i s.advance = .next t from ht, afterExec]
    split
    case isTrue => rfl
    case isFalse hrun => rw [State.completeCycle_eq hrun]; rfl
  case fault => rw [hstep, show exec i s.advance = .fault r from hr, afterExec]

/-- The word at 0x200 of the reset memory is 0x0000, which is no instruction (R92). -/
theorem decode_reset_fetchWord : decode State.reset.fetchWord = .error .category0 := by
  rw [State.reset_fetchWord, State.reset_read, State.reset_read, Memory.unlisted_of_le (by decide),
    Memory.unlisted_of_le (by decide)]
  decide

/-- Settles O15: the word at the entry point of the reset memory is illegal. -/
theorem firstCycleWithoutALoadFaults : Obligations.FirstCycleWithoutALoadFaults :=
  ⟨_, illegalWordFaults State.reset .category0 (by decide) (by decide) decode_reset_fetchWord, rfl, rfl, rfl⟩

/-! ### Faults -/

/-- A fault raised after the advance restores PC and changes only the phase and the record. -/
theorem raise_advance_eq (s : State) (i : Instr) (k : FaultKind) (d : Option Nat) :
    s.advance.raise i k d = { s with phase := .halted, fault := some ⟨k, some (encode i), s.pc, d⟩ } := by
  rw [State.raise_eq, State.advance_pc, pc_add_sub]
  rfl

/-- Settles O23: of the five cases of a step three start in a block that is not halted and end in one that is; the word of an
instruction that faults is the word fetched, because encoding undoes decoding. -/
theorem faultsArePrecise : Obligations.FaultsArePrecise := by
  intro s t hs hstep ht
  cases step_cases hstep with
  | halted h _ => exact absurd h hs
  | fetchFault _ d hd htake =>
    obtain ⟨-, hpc, -⟩ := outOfRange_eq_some.1 hd
    exact ⟨_, htake, rfl, .inr ⟨by omega, rfl⟩⟩
  | decodeFault _ hf e _ htake =>
    have hpc : s.pc.toNat ≤ 0xFFE := by have := outOfRange_eq_none.1 hf; omega
    exact ⟨_, htake, rfl, .inl ⟨hpc, rfl⟩⟩
  | execFault _ hf i hi k d _ _ hraise =>
    have hpc : s.pc.toNat ≤ 0xFFE := by have := outOfRange_eq_none.1 hf; omega
    obtain ⟨henc, -⟩ := encodeOfDecodeIsTheWord _ _ hi
    exact ⟨_, hraise.trans (raise_advance_eq s i k d), rfl, .inl ⟨hpc, congrArg some henc⟩⟩
  | completed _ _ _ _ u _ hkeeps hcomplete =>
    obtain ⟨hphase, -⟩ := hkeeps
    exact absurd (hcomplete ▸ ht) (State.completeCycle_phase_ne_halted (hphase ▸ hs))

/-- Settles O24: an instruction that ends halted raised a fault of its own, which sets the record. -/
theorem eachInstructionRaisesOnlyItsFaults : Obligations.EachInstructionRaisesOnlyItsFaults := by
  intro i s t hs hexec ht
  obtain ⟨k, d, hk, rfl⟩ := exec_halted_iff_raise hexec hs ht
  exact ⟨k, d, hk, rfl⟩

/-! ### The park -/

/-- The word 0x1000 | p is a jump to p (40_control_flow.md R122). -/
theorem decode_park {p : Word} (h : p.toNat ≤ 0xFFE) : decode (0x1000 ||| p) = .ok (.jp (p.setWidth 12)) := by
  have hor : (0x1000 ||| p).toNat = 0x1000 + p.toNat := by
    rw [BitVec.toNat_or]
    exact (Nat.two_pow_add_eq_or_of_lt (i := 12) (by omega) 1).symm
  have hword : 0x1000 ||| p = encode (.jp (p.setWidth 12)) := by
    apply BitVec.eq_of_toNat_eq
    rw [hor, encode, encA_toNat (by decide), BitVec.toNat_setWidth]
    omega
  rw [hword, decodeOfEncodeIsTheInstruction _ rfl]

/-- Settles O33: a park is a jump to its own address, so PC ends where it was and only the tick is seen. -/
theorem parkOnlyTicksTheTimers : Obligations.ParkOnlyTicksTheTimers := by
  intro s hs hpc hpark
  have htarget : zextAddr (s.pc.setWidth 12) = s.pc := by
    apply BitVec.eq_of_toNat_eq
    rw [zextAddr_toNat, BitVec.toNat_setWidth]
    omega
  have hexec : exec (.jp (s.pc.setWidth 12)) s.advance = .next s :=
    congrArg (fun a => Host.Outcome.next (s.advance.setPc a)) htarget
  rw [step_of_decode hs hpc (hpark ▸ decode_park hpc), hexec, afterExec, if_neg hs, State.completeCycle_eq hs]
  rfl

/-- A run goes on from the next state of its first step. -/
theorem run_succ_of_step {s t : State} (h : step s = .next t) (k : Nat) :
    Sys2Proof.core.run (k + 1) s = Sys2Proof.core.run k t := by
  have hstep : Sys2Proof.core.step s = .next t := h
  simp only [Host.Core.run, hstep]

/-- A step from a final state answers a final state with the same PC: the tick changes neither PC nor memory. -/
theorem State.Final.exists_step {s : State} (h : s.Final) : ∃ t, step s = .next t ∧ t.Final ∧ t.pc = s.pc := by
  obtain ⟨hphase, hpc, hpark⟩ := h
  have hs : s.phase ≠ .halted := by rw [hphase]; decide
  exact ⟨_, parkOnlyTicksTheTimers s hs hpc hpark, ⟨rfl, hpc, hpark⟩, rfl⟩

/-- Settles O34: induction on the length of the run; a final state is in phase Running, so it is not failed. -/
theorem runsFromAFinalStateAreSafe : Obligations.RunsFromAFinalStateAreSafe := by
  intro s hs k
  have hrun : ∃ t, Sys2Proof.core.run k s = .next t ∧ t.Final ∧ t.pc = s.pc := by
    induction k generalizing s with
    | zero => exact ⟨s, rfl, hs, rfl⟩
    | succ k ih =>
      obtain ⟨u, hstep, hu, hpc⟩ := hs.exists_step
      obtain ⟨t, hrun, ht, hpc'⟩ := ih u hu
      exact ⟨t, (run_succ_of_step hstep k).trans hrun, ht, hpc'.trans hpc⟩
  obtain ⟨t, hrun', ⟨hphase, hfinal⟩, hpc⟩ := hrun
  have hsafe : ¬ State.Failed t := fun hfailed => nomatch hphase.symm.trans hfailed
  exact ⟨⟨t, hrun', hsafe⟩, t, hrun', ⟨hphase, hfinal⟩, hpc⟩

end Sys2Proof.Machine
end

section
/-! The invariant (10_state.md R27, R31, R40): every step and every request of the host keeps it, and from it every run goes
on. -/

namespace Sys2Proof.Machine

/-! ### What execute does to the memory's form and to the stack -/

theorem exec_keeps_memWf {i : Instr} {s t : State} (h : exec i s = .next t) (hwf : s.mem.wf = true) :
    t.mem.wf = true := by
  cases i with
  | ldB x =>
    obtain ⟨hrange, rfl⟩ | ⟨d, -, rfl⟩ := s.checked_cases h
    · obtain h0 | hle := outOfRange_eq_none.1 hrange
      · exact absurd h0 (by decide)
      · exact Memory.wf_writeBytes hwf hle
    · exact hwf
  | storeRegs x =>
    obtain ⟨hrange, rfl⟩ | ⟨d, -, rfl⟩ := s.checked_cases h
    · obtain h0 | hle := outOfRange_eq_none.1 hrange
      · exact absurd h0 (Nat.succ_ne_zero _)
      · exact wf_storeFirst s.v hwf hle
    · exact hwf
  | drw | loadRegs => obtain ⟨-, rfl⟩ | ⟨d, -, rfl⟩ := s.checked_cases h <;> exact hwf
  | ret => obtain ⟨-, rfl⟩ | ⟨-, hlt, rfl⟩ := exec_ret_cases h <;> exact hwf
  | call => obtain ⟨-, rfl⟩ | ⟨hlt, rfl⟩ := exec_call_cases h <;> exact hwf
  | skp => obtain ⟨d, rfl⟩ | ⟨k, -, rfl⟩ := exec_skp_cases h <;> simpa using hwf
  | sknp => obtain ⟨d, rfl⟩ | ⟨k, -, rfl⟩ := exec_sknp_cases h <;> simpa using hwf
  | ldVxK => obtain ⟨-, rfl⟩ | ⟨-, k, rfl⟩ := exec_ldVxK_cases h <;> exact hwf
  | seByte | sneByte | seReg | sneReg => cases h; simpa using hwf
  | _ => cases h; exact hwf

/-- No instruction but 00EE and 2nnn changes the stack or SP, also when it faults. -/
theorem exec_keeps_stack {i : Instr} {s t : State} (h : exec i s = .next t) (hret : i ≠ .ret)
    (hcall : ∀ nnn, i ≠ .call nnn) : t.sp = s.sp ∧ t.stack = s.stack := by
  obtain ⟨k, d, rfl⟩ | hframe := exec_frame_cases h
  · exact ⟨rfl, rfl⟩
  · exact ⟨hframe .sp (by simp [MayWrite, hret, hcall]),
      stack_ext fun j => hframe (.entry j) (by simp [MayWrite, hcall])⟩

/-- SP names at most the sixteen entries, and every entry is an address that 2nnn can write (10_state.md R27, R31). -/
def StackLegal (s : State) : Prop := s.sp.toNat ≤ 16 ∧ ∀ j : Fin 16, (s.stack[j]).toNat ≤ 0x1000

/-- A legal stack stays legal: a pop lowers SP, and a push writes PC below a SP of at most 15. -/
theorem exec_keeps_stackLegal {i : Instr} {s t : State} (h : exec i s = .next t) (hpc : s.pc.toNat ≤ 0x1000)
    (hs : StackLegal s) : StackLegal t := by
  obtain ⟨hsp, hentry⟩ := hs
  by_cases hret : i = .ret
  · subst hret
    obtain ⟨-, rfl⟩ | ⟨h0, hlt, rfl⟩ := exec_ret_cases h
    · exact ⟨hsp, hentry⟩
    · exact ⟨by rw [State.pop_sp, sp_sub_one_toNat h0]; omega, hentry⟩
  by_cases hcall : ∃ nnn, i = .call nnn
  · obtain ⟨nnn, rfl⟩ := hcall
    obtain ⟨-, rfl⟩ | ⟨hlt, rfl⟩ := exec_call_cases h
    · exact ⟨hsp, hentry⟩
    · refine ⟨(sp_add_one_toNat hlt).trans_le hlt, fun j => ?_⟩
      rw [State.setPc_stack, State.push_stack, Fin.getElem_fin, Vector.getElem_set]
      split
      · exact hpc
      · exact hentry j
  · obtain ⟨hsp', hstack⟩ := exec_keeps_stack h hret fun nnn hi => hcall ⟨nnn, hi⟩
    rw [StackLegal, hsp', hstack]
    exact ⟨hsp, hentry⟩

/-- PC after a completed cycle is at most 0xFFF + 0xFF, when every stack entry is at most 0x1000 (R27). -/
theorem pcAfter_le {s : State} (i : Instr) (hpc : s.pc.toNat ≤ 0xFFE) (hentry : ∀ j : Fin 16, (s.stack[j]).toNat ≤ 0x1000) :
    pcAfter s i ≤ 0x10FE := by
  unfold pcAfter
  split
  case h_1 => exact (hentry _).trans (by decide)
  case h_2 nnn | h_3 nnn => have := nnn.isLt; omega
  case h_4 nnn => have := nnn.isLt; have := (s.reg 0).isLt; omega
  case h_5 | h_6 => split <;> omega

/-! ### One step -/

/-- The reset state meets the invariant, whatever the model's counter is. -/
theorem inv_hostReset (s : State) : s.hostReset.Inv where
  memWf := rfl
  spLegal := show (0 : Byte).toNat ≤ 16 by decide
  pcBound := show (0x200 : Word).toNat ≤ 0x10FE by decide
  entryBound j := by
    have hj : s.hostReset.stack[j] = 0 := State.reset_stack j
    rw [hj]
    decide
  faultIffHalted := by simp [State.hostReset, State.reset]

/-- Settles O18: the counter is at 0 after reset too. -/
theorem resetMeetsTheInvariant : Obligations.ResetMeetsTheInvariant := inv_hostReset State.reset

/-- Halting with a record keeps the invariant. -/
theorem State.Inv.halt {s : State} (h : s.Inv) (rec : FaultRecord) :
    State.Inv { s with phase := .halted, fault := some rec } :=
  { h with faultIffHalted := iff_of_true rfl rfl }

/-- A step that neither starts nor ends halted completed the cycle of the instruction at PC. -/
theorem completes_of_step {s t : State} (hstep : step s = .next t) (hs : s.phase ≠ .halted) (ht : t.phase ≠ .halted) :
    ∃ i, Completes i s t := by
  have hpc : s.pc.toNat ≤ 0xFFE := by
    by_contra hpc
    rw [fetchPastTheEndFaults s hs (by omega)] at hstep
    cases hstep
    exact ht rfl
  obtain ⟨i, -, hi, -⟩ := step_completes hstep hs ht
  exact ⟨i, hs, hpc, hi, hstep, ht⟩

/-- A completed cycle keeps the invariant, part by part. -/
theorem Completes.inv {i : Instr} {s t : State} (h : Completes i s t) (hs : s.Inv) : t.Inv := by
  have hpc' := pcAfterEachInstruction i s t h
  obtain ⟨u, hexec, ⟨hphase, hfault, -⟩, rfl⟩ := h.exec_next
  obtain ⟨hrun, hpc, -, -, hrun'⟩ := h
  have hadvance : s.advance.pc.toNat ≤ 0x1000 := by
    rw [State.advance_pc]
    bv_omega
  obtain ⟨hsp, hentry⟩ := exec_keeps_stackLegal hexec hadvance ⟨hs.spLegal, hs.entryBound⟩
  have hwf : u.mem.wf = true := exec_keeps_memWf hexec hs.memWf
  refine ⟨hwf, hsp, ?pcBound, hentry, ?faultIffHalted⟩
  case pcBound => exact hpc'.trans_le (pcAfter_le i hpc hs.entryBound)
  case faultIffHalted =>
    rw [State.completeCycle_fault, hfault, hs.faultIffHalted]
    exact iff_of_false hrun hrun'

/-- Settles O19: a halted block does not change, a fault changes only the phase and the record, and a completed cycle keeps
each part. -/
theorem everyStepKeepsTheInvariant : Obligations.EveryStepKeepsTheInvariant := by
  intro s t hs hstep
  by_cases hrun : s.phase = .halted
  · rw [haltedBlockIgnoresCycles s hrun] at hstep
    cases hstep
    exact hs
  by_cases hrun' : t.phase = .halted
  · obtain ⟨rec, rfl, -⟩ := faultsArePrecise s t hrun hstep hrun'
    exact hs.halt rec
  · obtain ⟨i, hcycle⟩ := completes_of_step hstep hrun hrun'
    exact hcycle.inv hs

/-- Settles O21: halted, fetch out of range and illegal word each answer; and a decoded instruction can stop only with SP above
16, which the invariant rules out. -/
theorem everyStepFromTheInvariantAnswers : Obligations.EveryStepFromTheInvariantAnswers := by
  intro s hs
  by_cases hrun : s.phase = .halted
  · exact ⟨_, haltedBlockIgnoresCycles s hrun⟩
  by_cases hpc : s.pc.toNat ≤ 0xFFE
  case neg => exact ⟨_, fetchPastTheEndFaults s hrun (by omega)⟩
  cases hi : decode s.fetchWord with
  | error e => exact ⟨_, illegalWordFaults s e hrun hpc hi⟩
  | ok i =>
    obtain ⟨t, hexec⟩ | ⟨hsp, -⟩ := exec_answers i s.advance
    · exact ⟨_, (step_of_decode hrun hpc hi).trans (congrArg afterExec hexec)⟩
    · exact absurd hs.spLegal (Nat.not_le.2 hsp)

/-- Settles O22: induction on the length of the run, with the state general: a step answers and keeps the invariant. -/
theorem everyRunFromTheInvariantGoesOn : Obligations.EveryRunFromTheInvariantGoesOn := by
  intro k
  induction k with
  | zero => exact fun s hs => ⟨s, rfl, hs⟩
  | succ k ih =>
    intro s hs
    obtain ⟨u, hstep⟩ := everyStepFromTheInvariantAnswers s hs
    obtain ⟨t, hrun, ht⟩ := ih u (everyStepKeepsTheInvariant s u hs hstep)
    exact ⟨t, (run_succ_of_step hstep k).trans hrun, ht⟩

/-! ### The requests of the host (10_state.md R43) -/

theorem State.load_eq_refused {s : State} (rom : List Byte) (h : s.phase ≠ .reset ∨ s.loaded = true) :
    s.load rom = .refused := by
  refine if_neg fun ⟨hphase, hloaded⟩ => ?_
  obtain h | h := h
  · exact h hphase
  · exact Bool.false_ne_true (hloaded.symm.trans h)

theorem State.load_eq_tooLarge {s : State} {rom : List Byte} (hphase : s.phase = .reset) (hloaded : s.loaded = false)
    (hlen : Config.romMax < rom.length) : s.load rom = .tooLarge := by
  rw [State.load, if_pos ⟨hphase, hloaded⟩, if_pos hlen]

/-- A load that succeeds had at most 3584 bytes, and copied them. -/
theorem State.load_ok_cases {s t : State} {rom : List Byte} (h : s.load rom = .ok t) :
    rom.length ≤ Config.romMax ∧ t = { s with mem := s.mem.writeBytes Config.programBase rom, loaded := true } := by
  unfold State.load at h
  split at h
  · split at h <;> cases h
    exact ⟨Nat.not_lt.1 ‹_›, rfl⟩
  · cases h

/-- Settles O17: each answer of load is one branch of its two tests, and the bytes of an accepted load are written
consecutively inside the address space. -/
theorem loaderAnswers : Obligations.LoaderAnswers := by
  refine fun s rom hwf => ⟨fun h => ?refused, fun hphase hloaded hlen => ?tooLarge, fun hphase hloaded hlen => ?ok⟩
  case refused =>
    have hload := State.load_eq_refused rom h
    exact ⟨hload, by simp only [State.serve, hload]⟩
  case tooLarge =>
    have hload := State.load_eq_tooLarge hphase hloaded hlen
    exact ⟨hload, by simp only [State.serve, hload]⟩
  case ok =>
    have hload := State.load_eq_ok hphase hloaded hlen
    refine ⟨_, hload, by simp only [State.serve, hload], rfl, ?readsBack, ?frame⟩
    case readsBack => exact Memory.read_writeBytes hwf (programBase_add_length_le hlen)
    case frame =>
      intro p hp
      obtain ⟨hloaded, hbyte⟩ := not_or.1 hp
      cases p
      case loaded => exact absurd rfl hloaded
      case byte a =>
        refine Memory.read_writeBytes_other ?_
        by_contra hinside
        have hbase : Config.programBase = 0x200 := rfl
        exact hbyte ⟨a - 0x200, by omega, congrArg Part.byte (by omega)⟩
      all_goals rfl

/-- Settles O20: reset gives the reset state, an accepted load writes inside the address space, a cycle is a step, and the
other requests touch no part that the invariant speaks of. -/
theorem everyHostRequestKeepsTheInvariant : Obligations.EveryHostRequestKeepsTheInvariant := by
  intro s t op hs h
  cases op with
  | reset => cases h; exact inv_hostReset s
  | load rom =>
    simp only [State.serve] at h
    split at h
    case h_1 u hload =>
      cases h
      obtain ⟨hlen, rfl⟩ := State.load_ok_cases hload
      exact { hs with memWf := Memory.wf_writeBytes hs.memWf (programBase_add_length_le hlen) }
    case h_2 => cases h; exact hs
    case h_3 => cases h
  | setKeys k => cases h; exact { hs with }
  | cycle => exact everyStepKeepsTheInvariant s t hs h
  | readOutputs => cases h; exact hs

/-- Settles O25: set_keys is one write of the keypad; in phase Halted a cycle is ignored and a load refused. -/
theorem onlyResetLeavesHalted : Obligations.OnlyResetLeavesHalted := by
  refine ⟨fun s k => ⟨_, rfl, rfl, frame_setKeys s k⟩, fun s hs => ?halted⟩
  refine ⟨haltedBlockIgnoresCycles s hs, rfl, fun rom => ?load, ⟨_, rfl, rfl, rfl⟩⟩
  case load =>
    have hphase : s.phase ≠ .reset := by rw [hs]; decide
    simp only [State.serve, State.load_eq_refused rom (.inl hphase)]

end Sys2Proof.Machine
end

section
/-! What execute does not read: the model's counter of draws, but for Cxkk and Fx0A (30_encoding.md section 5), and stack
entries at or above SP (10_state.md R36, D24). -/

namespace Sys2Proof.Machine

/-! ### Execute commutes with a change of the stack and the counter -/

/-- s with its stack and its counter of draws changed, and nothing else; with `id` for one of the two, the other alone. -/
def State.mapHidden (g : Vector Word 16 → Vector Word 16) (d : Nat → Nat) (s : State) : State :=
  { s with stack := g s.stack, draws := d s.draws }

/-- A result with its next state changed. -/
def mapNext (f : State → State) : Result → Result
  | .next t => .next (f t)
  | .fault r => .fault r
  | .refused r => .refused r

section

variable (g : Vector Word 16 → Vector Word 16) (d : Nat → Nat)

theorem mapHidden_skipIf (s : State) (c : Bool) : (s.mapHidden g d).skipIf c = (s.skipIf c).mapHidden g d := by
  cases c <;> rfl

theorem mapHidden_checked (s : State) (i : Instr) (len : Nat) (t : State) :
    (s.mapHidden g d).checked i len (t.mapHidden g d) = mapNext (State.mapHidden g d) (s.checked i len t) := by
  by_cases h : len = 0 ∨ s.i.toNat + len ≤ 0x1000
  · rw [State.checked_inRange t h, State.checked_inRange (s := s.mapHidden g d) _ h, mapNext]
  · obtain ⟨h0, hlt⟩ : len ≠ 0 ∧ 0x1000 < s.i.toNat + len := by omega
    rw [State.checked_outOfRange t h0 hlt, State.checked_outOfRange (s := s.mapHidden g d) _ h0 hlt]
    rfl

/-- An instruction that is one checked access, whose next state changes with the state before it. -/
theorem exec_mapHidden_of_checked {s t : State} {i : Instr} {len : Nat} (h : exec i s = s.checked i len t)
    (h' : exec i (s.mapHidden g d) = (s.mapHidden g d).checked i len (t.mapHidden g d)) :
    exec i (s.mapHidden g d) = mapNext (State.mapHidden g d) (exec i s) := by
  rw [h', h, mapHidden_checked]

/-- An instruction that works on neither the stack nor a free value does the same, whatever they are. -/
theorem exec_mapHidden {i : Instr} (hret : i ≠ .ret) (hcall : ∀ nnn, i ≠ .call nnn) (hrnd : ∀ x kk, i ≠ .rnd x kk)
    (hkey : ∀ x, i ≠ .ldVxK x) (s : State) :
    exec i (s.mapHidden g d) = mapNext (State.mapHidden g d) (exec i s) := by
  cases i with
  | ret => exact absurd rfl hret
  | call nnn => exact absurd rfl (hcall nnn)
  | rnd x kk => exact absurd rfl (hrnd x kk)
  | ldVxK x => exact absurd rfl (hkey x)
  | seByte | sneByte | seReg | sneReg => exact congrArg Host.Outcome.next (mapHidden_skipIf g d s _)
  | skp x =>
    cases hk : s.keyOf x with
    | none => rw [exec_skp_of_none hk, exec_skp_of_none (s := s.mapHidden g d) hk]; rfl
    | some k =>
      rw [exec_skp_of_key hk, exec_skp_of_key (s := s.mapHidden g d) hk]
      exact congrArg Host.Outcome.next (mapHidden_skipIf g d s _)
  | sknp x =>
    cases hk : s.keyOf x with
    | none => rw [exec_sknp_of_none hk, exec_sknp_of_none (s := s.mapHidden g d) hk]; rfl
    | some k =>
      rw [exec_sknp_of_key hk, exec_sknp_of_key (s := s.mapHidden g d) hk]
      exact congrArg Host.Outcome.next (mapHidden_skipIf g d s _)
  | drw | ldB | storeRegs | loadRegs => exact exec_mapHidden_of_checked g d rfl rfl
  | _ => rfl

end

/-! ### The free values -/

/-- 00EE works on the stack, and reads no free value. -/
theorem exec_ret_draws (s : State) (d : Nat) :
    exec .ret { s with draws := d } = mapNext (State.mapHidden id fun _ => d) (exec .ret s) := by
  by_cases h0 : s.sp = 0
  · rw [exec_ret_of_zero h0, exec_ret_of_zero (s := { s with draws := d }) h0]; rfl
  · by_cases hlt : s.sp.toNat - 1 < 16
    · rw [exec_ret_of_le h0 hlt, exec_ret_of_le (s := { s with draws := d }) h0 hlt]; rfl
    · simp only [exec, execRet, if_neg h0, dif_neg hlt, mapNext]

/-- 2nnn works on the stack, and reads no free value. -/
theorem exec_call_draws (s : State) (nnn : Addr12) (d : Nat) :
    exec (.call nnn) { s with draws := d } = mapNext (State.mapHidden id fun _ => d) (exec (.call nnn) s) := by
  by_cases hfull : s.sp = 16
  · rw [exec_call_of_full nnn hfull, exec_call_of_full (s := { s with draws := d }) nnn hfull]; rfl
  · by_cases hlt : s.sp.toNat < 16
    · rw [exec_call_of_lt nnn hlt, exec_call_of_lt (s := { s with draws := d }) nnn hlt]; rfl
    · simp only [exec, execCall, if_neg hfull, dif_neg hlt, mapNext]

/-- Settles O31: what execute answers with another counter is what it answers with this one, with the counter changed. -/
theorem freeInputsReachOnlyTheirInstructions : Obligations.FreeInputsReachOnlyTheirInstructions := by
  intro i s d hrnd hkey
  have hexec : exec i { s with draws := d } = mapNext (State.mapHidden id fun _ => d) (exec i s) := by
    by_cases hret : i = .ret
    · exact hret ▸ exec_ret_draws s d
    by_cases hcall : ∃ nnn, i = .call nnn
    · obtain ⟨nnn, rfl⟩ := hcall
      exact exec_call_draws s nnn d
    · exact exec_mapHidden id (fun _ => d) hret (fun nnn hi => hcall ⟨nnn, hi⟩) hrnd hkey s
  exact ⟨fun t ht => by rw [hexec, ht]; rfl, fun r hr => by rw [hexec, hr]; rfl, exec_ne_refused i s⟩

/-! ### Stale stack entries -/

/-- The second of two such states is the first with another stack, which agrees on the live entries. -/
theorem sameButStaleEntries_iff {s s' : State} : SameButStaleEntries s s' ↔
    ∃ k, s' = { s with stack := k } ∧ ∀ j : Fin 16, j.val < s.sp.toNat → k[j] = s.stack[j] :=
  ⟨fun ⟨hs', hlive⟩ => ⟨s'.stack, hs', hlive⟩, fun ⟨_, hs', hlive⟩ => by subst hs'; exact ⟨rfl, hlive⟩⟩

/-- Any instruction but 00EE and 2nnn does the same whatever the stack is. -/
theorem exec_withStack {i : Instr} {s t : State} (h : exec i s = .next t) (hret : i ≠ .ret) (hcall : ∀ nnn, i ≠ .call nnn)
    (k : Vector Word 16) : exec i { s with stack := k } = .next { t with stack := k } := by
  by_cases hrnd : ∃ x kk, i = .rnd x kk
  · obtain ⟨x, kk, rfl⟩ := hrnd
    cases h
    rfl
  by_cases hkey : ∃ x, i = .ldVxK x
  · obtain ⟨x, rfl⟩ := hkey
    cases hp : s.pressed with
    | nil =>
      rw [exec_ldVxK_of_none x hp] at h
      cases h
      exact exec_ldVxK_of_none (s := { s with stack := k }) x hp
    | cons j js =>
      rw [exec_ldVxK_of_cons x hp] at h
      cases h
      exact exec_ldVxK_of_cons (s := { s with stack := k }) x hp
  · have hexec := exec_mapHidden (fun _ => k) id hret hcall (fun x kk hi => hrnd ⟨x, kk, hi⟩) (fun x hi => hkey ⟨x, hi⟩) s
    rw [h] at hexec
    exact hexec

/-- Two states that differ in stale entries agree on the live ones, so an instruction takes them to two such states: 00EE reads
a live entry, and 2nnn writes the entry that it makes live. -/
theorem exec_sameButStaleEntries {i : Instr} {s s' t : State} (hsame : SameButStaleEntries s s')
    (h : exec i s = .next t) : ∃ t', exec i s' = .next t' ∧ SameButStaleEntries t t' := by
  obtain ⟨k, rfl, hlive⟩ := sameButStaleEntries_iff.1 hsame
  by_cases hret : i = .ret
  · subst hret
    obtain ⟨h0, rfl⟩ | ⟨h0, hlt, rfl⟩ := exec_ret_cases h
    · exact ⟨_, exec_ret_of_zero (s := { s with stack := k }) h0, rfl, hlive⟩
    · have hsp : (s.sp - 1).toNat < s.sp.toNat := by bv_omega
      have htop : k[s.sp.toNat - 1] = s.stack[s.sp.toNat - 1] :=
        hlive ⟨_, hlt⟩ ((sp_sub_one_toNat h0).symm.trans_lt hsp)
      refine ⟨_, exec_ret_of_le (s := { s with stack := k }) h0 hlt, ?same, fun j hj => hlive j (hj.trans hsp)⟩
      case same => exact congrArg (fun a => { s with sp := s.sp - 1, pc := a, stack := k }) htop
  by_cases hcall : ∃ nnn, i = .call nnn
  · obtain ⟨nnn, rfl⟩ := hcall
    obtain ⟨hfull, rfl⟩ | ⟨hlt, rfl⟩ := exec_call_cases h
    · exact ⟨_, exec_call_of_full (s := { s with stack := k }) nnn hfull, rfl, hlive⟩
    · refine ⟨_, exec_call_of_lt (s := { s with stack := k }) nnn hlt, rfl, fun j hj => ?live⟩
      case live =>
        have hj' : j.val < s.sp.toNat + 1 := sp_add_one_toNat hlt ▸ hj
        simp only [State.setPc_stack, State.push_stack, Fin.getElem_fin, Vector.getElem_set]
        split
        · rfl
        · exact hlive j (by omega)
  · have hcall' : ∀ nnn, i ≠ .call nnn := fun nnn hi => hcall ⟨nnn, hi⟩
    obtain ⟨hsp, hstack⟩ := exec_keeps_stack h hret hcall'
    refine ⟨_, exec_withStack h hret hcall' k, rfl, ?live⟩
    case live => rw [hsp, hstack]; exact hlive

/-- What the cycle adds after execute keeps two such states alike. -/
theorem afterExec_sameButStaleEntries {u u' t : State} (hsame : SameButStaleEntries u u')
    (h : afterExec (.next u) = .next t) : ∃ t', afterExec (.next u') = .next t' ∧ SameButStaleEntries t t' := by
  obtain ⟨k, rfl, hlive⟩ := sameButStaleEntries_iff.1 hsame
  refine ⟨_, rfl, ?_⟩
  have ht : t = if u.phase = .halted then u else u.completeCycle := (Host.Outcome.next.inj h).symm
  subst ht
  by_cases hhalted : u.phase = .halted
  · simp only [if_pos hhalted]; exact ⟨rfl, hlive⟩
  · simp only [if_neg hhalted]; exact ⟨rfl, hlive⟩

/-- Settles O32: the phase, PC, the word fetched and its decoding are the same in both states, so each step is in the same
case; a fault of the fetch or of the decoder leaves the stack, and execute and what the cycle adds keep the two alike. -/
theorem staleStackEntriesAreInvisible : Obligations.StaleStackEntriesAreInvisible := by
  intro s s' t hsame hstep
  obtain ⟨k, rfl, hlive⟩ := sameButStaleEntries_iff.1 hsame
  by_cases hs : s.phase = .halted
  · rw [haltedBlockIgnoresCycles s hs] at hstep
    cases hstep
    exact ⟨_, haltedBlockIgnoresCycles { s with stack := k } hs, hsame⟩
  by_cases hpc : s.pc.toNat ≤ 0xFFE
  case neg =>
    rw [fetchPastTheEndFaults s hs (by omega)] at hstep
    cases hstep
    exact ⟨_, fetchPastTheEndFaults { s with stack := k } hs (Nat.not_le.1 hpc), rfl, hlive⟩
  cases hi : decode s.fetchWord with
  | error e =>
    rw [illegalWordFaults s e hs hpc hi] at hstep
    cases hstep
    exact ⟨_, illegalWordFaults { s with stack := k } e hs hpc hi, rfl, hlive⟩
  | ok i =>
    rw [step_of_decode hs hpc hi] at hstep
    rw [step_of_decode (s := { s with stack := k }) hs hpc hi]
    cases hexec : exec i s.advance with
    | next u =>
      have hadvance : SameButStaleEntries s.advance ({ s with stack := k } : State).advance := ⟨rfl, hlive⟩
      obtain ⟨u', hexec', husame⟩ := exec_sameButStaleEntries hadvance hexec
      rw [hexec']
      exact afterExec_sameButStaleEntries husame (hexec ▸ hstep)
    | fault r => rw [hexec] at hstep; cases hstep
    | refused r => rw [hexec] at hstep; cases hstep

end Sys2Proof.Machine
end

section
/-! Placing a word for the next fetch (log 8). -/

namespace Sys2Proof.Machine

/-- The first half of `readyToFetch`: a halted block runs again. -/
def State.woken (s : State) : State := if s.phase = .halted then { s with phase := .running, fault := none } else s

theorem State.readyToFetch_eq (s : State) :
    s.readyToFetch = if s.woken.pc.toNat + 1 < Config.memSize then s.woken else s.woken.setPc 0x200 := rfl

theorem State.woken_phase_ne_halted (s : State) : s.woken.phase ≠ .halted := by
  unfold State.woken
  split
  · nofun
  · assumption

theorem State.woken_pc (s : State) : s.woken.pc = s.pc := by unfold State.woken; split <;> rfl

theorem State.woken_mem (s : State) : s.woken.mem = s.mem := by unfold State.woken; split <;> rfl

theorem frame_woken (s : State) : Frame (fun p => s.phase = .halted ∧ (p = .phase ∨ p = .fault)) s s.woken := by
  intro p hp
  unfold State.woken
  split
  case isTrue hs =>
    cases p
    case phase => exact absurd ⟨hs, .inl rfl⟩ hp
    case fault => exact absurd ⟨hs, .inr rfl⟩ hp
    all_goals rfl
  case isFalse => cases p <;> rfl

theorem State.readyToFetch_phase_ne_halted (s : State) : s.readyToFetch.phase ≠ .halted := by
  rw [State.readyToFetch_eq]
  split <;> exact s.woken_phase_ne_halted

theorem State.readyToFetch_pc_le (s : State) : s.readyToFetch.pc.toNat ≤ 0xFFE := by
  rw [State.readyToFetch_eq]
  split
  case isTrue h => exact Nat.le_of_lt_succ (Nat.lt_of_succ_lt_succ h)
  case isFalse => exact show (0x200 : Word).toNat ≤ 0xFFE by decide

theorem State.readyToFetch_mem (s : State) : s.readyToFetch.mem = s.mem := by
  rw [State.readyToFetch_eq, ← s.woken_mem]
  split <;> rfl

theorem frame_readyToFetch (s : State) : Frame (fun p => (0xFFF ≤ s.pc.toNat ∧ p = .pc) ∨
    (s.phase = .halted ∧ (p = .phase ∨ p = .fault))) s s.readyToFetch := by
  rw [State.readyToFetch_eq, s.woken_pc]
  split
  case isTrue => exact (frame_woken s).mono fun _ => .inr
  case isFalse h =>
    have hpc : 0xFFF ≤ s.pc.toNat := Nat.le_of_succ_le_succ (Nat.not_lt.1 h)
    exact ((frame_woken s).trans (frame_setPc _ _)).mono fun _ hp => hp.symm.imp (⟨hpc, ·⟩) id

/-- A word is its own table word of 16 bits. -/
theorem tableWord_toNat (w : Word) : tableWord 16 w.toNat = w := by
  rw [tableWord, Nat.mod_eq_of_lt w.isLt, BitVec.ofNat_toNat, BitVec.setWidth_eq]

theorem State.withFetchWord_eq (s : State) (w : Word) : s.withFetchWord 16 w.toNat = s.readyToFetch.setMem
    (s.readyToFetch.mem.writeBytes s.readyToFetch.pc.toNat [(bytesOfWord w).1, (bytesOfWord w).2]) := by
  rw [State.withFetchWord, tableWord_toNat]
  rfl

/-- The two bytes placed are what the next fetch reads, over a canonical memory. -/
theorem State.withFetchWord_fetchWord {s : State} (hwf : s.mem.wf = true) (w : Word) :
    (s.withFetchWord 16 w.toNat).fetchWord = w := by
  have hwf' : s.readyToFetch.mem.wf = true := s.readyToFetch_mem ▸ hwf
  have hread := Memory.read_writeBytes (bs := [(bytesOfWord w).1, (bytesOfWord w).2]) hwf'
    (show s.readyToFetch.pc.toNat + 2 ≤ Config.memSize from Nat.add_le_add_right s.readyToFetch_pc_le 2)
  have hhi := hread 0 (show 0 < 2 by decide)
  have hlo := hread 1 (show 1 < 2 by decide)
  rw [State.withFetchWord_eq, State.fetchWord, State.setMem_mem, State.setMem_pc, hlo]
  rw [Nat.add_zero] at hhi
  rw [hhi]
  exact wordOfBytes_bytesOfWord w

/-- Settles O13: the state with the word placed is not halted and its PC is in range, so the step runs what the word decodes
to; placing it wakes the block and moves PC where needed, and then writes two bytes. -/
theorem placedWordRunsNext : Obligations.PlacedWordRunsNext := by
  refine fun s w i hwf hi => ⟨step_of_decode ?phase ?pc ?decodes, ?frame⟩
  case phase => rw [State.withFetchWord_eq]; exact s.readyToFetch_phase_ne_halted
  case pc => rw [State.withFetchWord_eq]; exact s.readyToFetch_pc_le
  case decodes => rw [State.withFetchWord_fetchWord hwf, hi]
  case frame =>
    rw [State.withFetchWord_eq, State.setMem_pc]
    have hstore : Frame (fun p => ∃ a, (a = s.readyToFetch.pc.toNat ∨ a = s.readyToFetch.pc.toNat + 1) ∧ p = .byte a)
        s.readyToFetch (s.readyToFetch.setMem
          (s.readyToFetch.mem.writeBytes s.readyToFetch.pc.toNat [(bytesOfWord w).1, (bytesOfWord w).2])) :=
      frame_setMem fun a ha => Memory.read_writeBytes_other (by simp only [List.length_cons, List.length_nil]; omega)
    refine ((frame_readyToFetch s).trans hstore).mono fun p hp => ?_
    obtain hready | ⟨a, rfl | rfl, rfl⟩ := hp
    exacts [.inr (.inr hready), .inl rfl, .inr (.inl rfl)]

end Sys2Proof.Machine
end

section
/-! The draw (43_display.md R191 to R194): bit by bit and row by row it inverts the cells under the sprite's 1 bits, no cell
twice, and reports whether one of them was lit. -/

namespace Sys2Proof.Machine

/-! ### One row -/

/-- The bits up to the next one lie over what the bits before it lie over, and over the next one's cell when it is 1. -/
theorem byteBit_succ (b : Byte) {x0 n : Nat} (hx : x0 < 64) (hn : n < 8) (c : Fin 64) :
    byteBit b x0 (n + 1) c = (byteBit b x0 n c || (b.getLsbD (7 - n) && decide (Fin.ofNat 64 (x0 + n) = c))) := by
  have hcol := ofNat64_eq_iff hx (show n < 64 by omega) c
  by_cases hc : Fin.ofNat 64 (x0 + n) = c
  · rw [decide_eq_true hc]
    simp [byteBit, hcol.1 hc]
  · have hlt : (c.val + 64 - x0) % 64 < n + 1 ↔ (c.val + 64 - x0) % 64 < n := by have := mt hcol.2 hc; omega
    rw [decide_eq_false hc]
    simp [byteBit, hlt]

/-- No bit before the next one lies over its cell. -/
theorem byteBit_ofNat (b : Byte) {x0 n : Nat} (hx : x0 < 64) (hn : n < 8) :
    byteBit b x0 n (Fin.ofNat 64 (x0 + n)) = false := by
  have hcol := (ofNat64_eq_iff hx (show n < 64 by omega) _).1 rfl
  simp only [byteBit, hcol, Nat.lt_irrefl, decide_false, Bool.false_and]

/-- Drawing the first bits of a sprite byte reports a collision exactly when a cell under one of its 1 bits was lit. -/
theorem drawByte_collision (b : Byte) {x0 : Nat} (hx : x0 < 64) (py : Fin 32) (k : Canvas) :
    ∀ {count : Nat}, count ≤ 8 → ((drawByte b x0 py count k).2 = true ↔
      k.2 = true ∨ ∃ c, k.1.cell c py = true ∧ byteBit b x0 count c = true)
  | 0, _ => by simp [drawByte, byteBit]
  | n + 1, hn => by
    have ih := drawByte_collision b hx py k (count := n) (by omega)
    have hcell : (drawByte b x0 py n k).1.cell (Fin.ofNat 64 (x0 + n)) py = k.1.cell (Fin.ofNat 64 (x0 + n)) py := by
      rw [cell_drawByte b hx py k _ _ (by omega), byteBit_ofNat b hx (by omega), Bool.and_false, Bool.xor_false]
    simp only [drawByte, byteBit_succ b hx (show n < 8 by omega)]
    by_cases hb : b.getLsbD (7 - n) = true
    · rw [if_pos hb, Canvas.plot_collision, Bool.or_eq_true, ih, hcell]
      simp only [hb, Bool.true_and, Bool.or_eq_true, decide_eq_true_eq, and_or_left, exists_or, exists_eq_right', or_assoc]
    · rw [if_neg hb, ih]
      simp only [hb, Bool.false_and, Bool.or_false]

/-! ### The sprite -/

/-- The rows up to the next one lie over what the rows before it lie over, and over the next one's cells. -/
theorem spriteBit_succ (m : Memory) (base x0 : Nat) {y0 n : Nat} (hy : y0 < 32) (hn : n < 32) (c : Fin 64) (r : Fin 32) :
    spriteBit m base x0 y0 (n + 1) c r = (spriteBit m base x0 y0 n c r ||
      (byteBit (m.read (base + n)) x0 8 c && decide (Fin.ofNat 32 (y0 + n) = r))) := by
  have hrow := ofNat32_eq_iff hy hn r
  by_cases hr : Fin.ofNat 32 (y0 + n) = r
  · rw [decide_eq_true hr]
    simp [spriteBit, byteBit, hrow.1 hr]
  · have hlt : (r.val + 32 - y0) % 32 < n + 1 ↔ (r.val + 32 - y0) % 32 < n := by have := mt hrow.2 hr; omega
    rw [decide_eq_false hr]
    simp [spriteBit, hlt]

/-- No row before the next one lies over its cells. -/
theorem spriteBit_ofNat (m : Memory) (base x0 : Nat) {y0 n : Nat} (hy : y0 < 32) (hn : n < 32) (c : Fin 64) :
    spriteBit m base x0 y0 n c (Fin.ofNat 32 (y0 + n)) = false := by
  have hrow := (ofNat32_eq_iff hy hn _).1 rfl
  simp only [spriteBit, hrow, Nat.lt_irrefl, decide_false, Bool.and_false, Bool.false_and]

/-- Drawing the first rows of a sprite inverts exactly the cells under its 1 bits. -/
theorem cell_drawRows (m : Memory) (base : Nat) {x0 y0 : Nat} (hx : x0 < 64) (hy : y0 < 32) (k : Canvas) (c : Fin 64)
    (r : Fin 32) : ∀ {n : Nat}, n ≤ 32 →
      (drawRows m base x0 y0 n k).1.cell c r = ((k.1.cell c r) ^^ spriteBit m base x0 y0 n c r)
  | 0, _ => by simp [drawRows, spriteBit]
  | n + 1, hn => by
    have ih := cell_drawRows m base hx hy k c r (n := n) (by omega)
    rw [drawRows, cell_drawByte _ hx _ _ _ _ (Nat.le_refl 8), ih, spriteBit_succ m base x0 hy (by omega)]
    by_cases hr : Fin.ofNat 32 (y0 + n) = r
    · rw [← hr, spriteBit_ofNat m base x0 hy (by omega), Bool.xor_false, Bool.false_or, Bool.and_comm]
    · rw [decide_eq_false hr, Bool.false_and, Bool.and_false, Bool.xor_false, Bool.or_false]

/-- Drawing the first rows of a sprite reports a collision exactly when a cell under one of its 1 bits was lit. -/
theorem drawRows_collision (m : Memory) (base : Nat) {x0 y0 : Nat} (hx : x0 < 64) (hy : y0 < 32) (k : Canvas) :
    ∀ {n : Nat}, n ≤ 32 → ((drawRows m base x0 y0 n k).2 = true ↔
      k.2 = true ∨ ∃ c r, k.1.cell c r = true ∧ spriteBit m base x0 y0 n c r = true)
  | 0, _ => by simp [drawRows, spriteBit]
  | n + 1, hn => by
    have ih := drawRows_collision m base hx hy k (n := n) (by omega)
    have hcell (c : Fin 64) :
        (drawRows m base x0 y0 n k).1.cell c (Fin.ofNat 32 (y0 + n)) = k.1.cell c (Fin.ofNat 32 (y0 + n)) := by
      rw [cell_drawRows m base hx hy k _ _ (by omega), spriteBit_ofNat m base x0 hy (by omega), Bool.xor_false]
    rw [drawRows, drawByte_collision _ hx _ _ (Nat.le_refl 8), ih]
    simp only [hcell, spriteBit_succ m base x0 hy (show n < 32 by omega), Bool.or_eq_true, Bool.and_eq_true,
      decide_eq_true_eq, and_or_left, exists_or, exists_eq_right_right', or_assoc]

/-! ### The instruction -/

/-- Whether the sprite of Dxyn has a 1 bit over cell (c, r), from the state before the draw. -/
def State.drawBit (s : State) (x y : RegIdx) (n : Nat) (c : Fin 64) (r : Fin 32) : Bool :=
  spriteBit s.mem s.i.toNat ((s.reg x).toNat % 64) ((s.reg y).toNat % 32) n c r

theorem exec_drw_inRange {s : State} (x y : RegIdx) {n : Nat} (h : n = 0 ∨ s.i.toNat + n - 1 ≤ 0xFFF) :
    exec (.drw x y n) s =
      .next ((s.setDisplay (s.drawSprite x y n).1).setVF (flagByte (s.drawSprite x y n).2)) :=
  State.checked_inRange _ (by omega)

theorem cell_drawSprite (s : State) (x y : RegIdx) {n : Nat} (hn : n ≤ 15) (c : Fin 64) (r : Fin 32) :
    (s.drawSprite x y n).1.cell c r = ((s.display.cell c r) ^^ s.drawBit x y n c r) :=
  cell_drawRows s.mem s.i.toNat (Nat.mod_lt _ (by decide)) (Nat.mod_lt _ (by decide)) _ c r (by omega)

theorem drawSprite_collision (s : State) (x y : RegIdx) {n : Nat} (hn : n ≤ 15) :
    (s.drawSprite x y n).2 = true ↔ ∃ c r, s.display.cell c r = true ∧ s.drawBit x y n c r = true := by
  have h := drawRows_collision s.mem s.i.toNat (x0 := (s.reg x).toNat % 64) (y0 := (s.reg y).toNat % 32)
    (Nat.mod_lt _ (by decide)) (Nat.mod_lt _ (by decide)) (s.display, false) (n := n) (by omega)
  exact h.trans (or_iff_right Bool.false_ne_true)

theorem flagByte_eq_one {c : Bool} : flagByte c = 1 ↔ c = true := by cases c <;> decide

/-- A cell under a 1 bit is lit after the draw exactly when it was dark before. -/
theorem lit_after_xor_iff (cell bit : Bool) : ((cell ^^ bit) = true ∧ bit = true) ↔ (cell = false ∧ bit = true) := by
  cases bit <;> simp

/-- Settles O38: every cell and the collision as the whole sprite's rows give them; VF is written last. -/
theorem drawXorsTheSprite : Obligations.DrawXorsTheSprite := by
  intro s x y n hn hrange
  refine ⟨_, exec_drw_inRange x y hrange, cell_drawSprite s x y hn, fun hlit => ?collision, fun hdark => ?noCollision, ?frame⟩
  case collision =>
    rw [State.setVF_eq, State.reg_setReg_self, (drawSprite_collision s x y hn).2 hlit]
    rfl
  case noCollision =>
    rw [State.setVF_eq, State.reg_setReg_self, Bool.eq_false_iff.2 (mt (drawSprite_collision s x y hn).1 hdark)]
    rfl
  case frame => exact ((frame_setDisplay s _).trans (frame_setReg _ 15 _)).mono fun _ => Or.symm

/-- Settles O39: the first draw changes neither the memory nor I, so at one origin the second XORs the same bits, and it meets
a lit cell exactly where the first met a dark one. -/
theorem drawTwiceRestoresTheDisplay : Obligations.DrawTwiceRestoresTheDisplay := by
  intro s x y n hn hrange
  refine ⟨_, exec_drw_inRange x y hrange, fun hcol hrow => ?_⟩
  generalize ht : (s.setDisplay (s.drawSprite x y n).1).setVF (flagByte (s.drawSprite x y n).2) = t at hcol hrow ⊢
  have hmem : t.mem = s.mem := by rw [← ht]; rfl
  have hi : t.i = s.i := by rw [← ht]; rfl
  have hcell (c : Fin 64) (r : Fin 32) : t.display.cell c r = ((s.display.cell c r) ^^ s.drawBit x y n c r) := by
    rw [← ht]; exact cell_drawSprite s x y hn c r
  have hbit : t.drawBit x y n = s.drawBit x y n := by
    funext c r
    rw [State.drawBit, State.drawBit, hmem, hi, hcol, hrow]
  refine ⟨_, exec_drw_inRange x y (hi ▸ hrange), ?display, ?collision⟩
  case display =>
    refine Display.ext_cell fun c r => ?_
    have h := cell_drawSprite t x y hn c r
    rw [hcell, hbit, Bool.xor_assoc, Bool.xor_self, Bool.xor_false] at h
    exact h
  case collision =>
    rw [State.setVF_eq, State.reg_setReg_self, flagByte_eq_one, drawSprite_collision t x y hn]
    refine exists_congr fun c => exists_congr fun r => ?_
    rw [hcell, hbit]
    exact lit_after_xor_iff _ _

end Sys2Proof.Machine
end
